-- ==== Sys2Proof/Word.lean ====
section
/-! DEFINITION. The one word of the core: a byte (R8, R10, R51). -/

namespace Sys2Proof

/-- A register value, memory byte, opcode or operand byte: 8 bits, read as an unsigned integer 0 .. 255;
bit 0 is the least significant (R9, R10). -/
abbrev Byte := BitVec 8

end Sys2Proof
end

