-- ==== Sys2Proof/Config.lean ====
section
/-! DEFINITION. The mnemonics, and the implementation parameters of R7: memory size, stack base and the
opcode assignment. `Config.params` holds the defaults; the fixed names of the model (exec, step, reset) are
the machine at these defaults, and Machine/Parametric.lean gives the machine at every parameter value. -/

namespace Sys2Proof

/-- The closed instruction set (R3). -/
inductive Mnemonic where
  | hlt | ldi | prn | mul | add | push | pop
  deriving DecidableEq, Repr

/-- Every mnemonic once, in the opcode table's order. -/
def Mnemonic.all : List Mnemonic := [.hlt, .ldi, .prn, .mul, .add, .push, .pop]

/-- The decoder's "operand count" column (R77); the formats F0, F1 and F2 of R71. -/
def Mnemonic.operandCount : Mnemonic → Nat
  | .hlt => 0
  | .prn | .push | .pop => 1
  | .ldi | .mul | .add => 2

/-- The parameters a model takes (R7). The register count 8 and the byte width are fixed (R8), and so are
the opcodes of HLT and LDI. -/
structure Params where
  /-- `MEM_SIZE`, N: addresses are 0 .. N-1. -/
  memSize : Nat
  /-- `STACK_BASE`: the reset value of sp. -/
  stackBase : Nat
  opcPrn : Byte
  opcMul : Byte
  opcAdd : Byte
  opcPush : Byte
  opcPop : Byte
  deriving DecidableEq, Repr

/-- The opcode byte of a mnemonic under an assignment (R7, R77). HLT and LDI are the source's own values. -/
def Params.opcode (P : Params) : Mnemonic → Byte
  | .hlt => 0b00000001#8
  | .ldi => 0b10000010#8
  | .prn => P.opcPrn
  | .mul => P.opcMul
  | .add => P.opcAdd
  | .push => P.opcPush
  | .pop => P.opcPop

/-- The defaults of R7.
N = 255 and STACK_BASE = 6: DESIGN CHOICE (the spec's D10: the source's unaudited literals), unsafe, log
entries 1 and 2. The five opcodes: PRESUMED (the spec's G1 and D9: general knowledge of the LS-8), unsafe,
log entry 3. -/
def Config.params : Params where
  memSize := 255
  stackBase := 6
  opcPrn := 0x47#8
  opcMul := 0xA2#8
  opcAdd := 0xA0#8
  opcPush := 0x45#8
  opcPop := 0x46#8

end Sys2Proof
end

