-- ==== Sys2Proof/Syntax.lean ====
section
/-! DEFINITION. The instructions, one constructor per row of spec/opcode_table.json. A register operand is
the operand byte itself, unmasked: every value 0 .. 255 is a legal encoding (R75, R81). -/

namespace Sys2Proof

/-- An instruction with its operand bytes in byte order (R74). -/
inductive Instr where
  /-- R160. -/
  | hlt
  /-- R120: op1 the register index, op2 the immediate. -/
  | ldi (reg imm : Byte)
  /-- R123. -/
  | prn (reg : Byte)
  /-- R134: `regA` is the destination and first source. -/
  | mul (regA regB : Byte)
  /-- R137: `regA` is the destination and first source. -/
  | add (regA regB : Byte)
  /-- R150. -/
  | push (reg : Byte)
  /-- R153. -/
  | pop (reg : Byte)
  deriving DecidableEq, Repr

/-- The mnemonic of an instruction (R77). -/
def Instr.mnemonic : Instr → Mnemonic
  | .hlt => .hlt
  | .ldi _ _ => .ldi
  | .prn _ => .prn
  | .mul _ _ => .mul
  | .add _ _ => .add
  | .push _ => .push
  | .pop _ => .pop

/-- The register index operands in the order in which they are checked (R74, R205 items 5 and 6). LDI's
second operand is an immediate and none of them (R203). -/
def Instr.regOperands : Instr → List Byte
  | .hlt => []
  | .ldi reg _ => [reg]
  | .prn reg => [reg]
  | .mul a b => [a, b]
  | .add a b => [a, b]
  | .push reg => [reg]
  | .pop reg => [reg]

end Sys2Proof
end

