-- ==== Sys2Proof/WellFormed.lean ====
section
/-! DEFINITION. Well-formedness. No encoding of an instruction is ill-formed (R81: "every value of an operand
byte is a legal encoding"), so the check that can fail is the one on the opcode assignment (R79). Beside it
stands the check of an instruction's register operands that R75 leaves to execution. -/

namespace Sys2Proof

/-- R79, first condition: bits 7:6 of every opcode are its operand count. -/
def Params.countsAgree (P : Params) : Bool :=
  Mnemonic.all.all fun m => (P.opcode m).toNat / 64 == m.operandCount

/-- R79, second condition: the seven opcode bytes are pairwise distinct. -/
def Params.opcodesDistinct (P : Params) : Bool :=
  decide (Mnemonic.all.map P.opcode).Nodup

/-- R79: the assignments a model accepts. The memory size and the stack base are unconstrained (R26, R151
speak of STACK_BASE beyond N). -/
def Params.wf (P : Params) : Bool :=
  P.countsAgree && P.opcodesDistinct

/-- R21: a register index names one of the eight registers. -/
abbrev IsReg (i : Byte) : Prop := i.toNat < 8

/-- Every register operand names a register. An instruction that fails this check is a legal encoding and
raises InvalidRegister when it executes (R75, R203). -/
def Instr.regsInRange (i : Instr) : Bool :=
  i.regOperands.all fun r => decide (IsReg r)

end Sys2Proof
end

