-- ==== Sys2Proof/Decode.lean ====
section
/-! DEFINITION. The decoder (R70 to R82) and, after it, the encoder. The decoder classifies the opcode byte
alone; the operand bytes follow it at ascending addresses (R73). -/

namespace Sys2Proof

/-- The number of operand bytes, `opcode >> 6` = `opcode[7:6]`, from the opcode byte alone (R70). -/
def operandCountOf (b : Byte) : Nat := (b >>> 6).toNat

/-- The ALU's closed, two-valued operation set (R130). -/
inductive AluOp where
  | mul | add
  deriving DecidableEq, Repr

/-- The decoder's four outputs for a known opcode (R77); `alu` carries both "ALU-bearing" and "ALU op". -/
structure OpClass where
  mnemonic : Mnemonic
  operandCount : Nat
  writesReg : Bool
  alu : Option AluOp
  deriving DecidableEq, Repr

/-- R77, column "writes a register". -/
def Mnemonic.writesReg : Mnemonic → Bool
  | .ldi | .mul | .add | .pop => true
  | .hlt | .prn | .push => false

/-- R77, columns "ALU-bearing" and "ALU op". -/
def Mnemonic.alu : Mnemonic → Option AluOp
  | .mul => some .mul
  | .add => some .add
  | .hlt | .ldi | .prn | .push | .pop => none

/-- The full-byte match against the seven opcodes (R72; DESIGN CHOICE of the spec, D23, log entry 12). -/
def mnemonicOf (P : Params) (b : Byte) : Option Mnemonic :=
  Mnemonic.all.find? fun m => P.opcode m == b

/-- R77: the decoder, a pure function of one byte; `none` is UnknownOpcode (R78). -/
def decodeOpcode (P : Params) (b : Byte) : Option OpClass :=
  (mnemonicOf P b).map fun m =>
    { mnemonic := m, operandCount := operandCountOf b, writesReg := m.writesReg, alu := m.alu }

/-- Operand assembly, the engine's job (R73), with the operand roles of R74. A mnemonic with fewer than two
operands leaves the other latches unread (R29). -/
def assemble (m : Mnemonic) (op1 op2 : Byte) : Instr :=
  match m with
  | .hlt => .hlt
  | .ldi => .ldi op1 op2
  | .prn => .prn op1
  | .mul => .mul op1 op2
  | .add => .add op1 op2
  | .push => .push op1
  | .pop => .pop op1

/-- Why a byte string is no instruction. -/
inductive DecodeError where
  /-- There is no byte at all. -/
  | noOpcode
  /-- R78. -/
  | unknownOpcode (b : Byte)
  /-- The string ends before operand byte `k` (1 or 2). -/
  | missingOperand (k : Nat)
  deriving DecidableEq, Repr

/-- Operand byte `k` of an instruction with `n` operand bytes, from the bytes after the opcode; an operand
the instruction does not have is not read (R29) and stands as 0, which `assemble` ignores. -/
def operandFrom (n k : Nat) (rest : List Byte) : Except DecodeError Byte :=
  if k ≤ n then
    match rest[k - 1]? with
    | some b => .ok b
    | none => .error (.missingOperand k)
  else .ok 0

/-- The instruction at the head of a byte string, and the bytes after it. UnknownOpcode comes before any
operand byte is looked at (R78, R102). -/
def decode (P : Params) : List Byte → Except DecodeError (Instr × List Byte)
  | [] => .error .noOpcode
  | b :: rest =>
    match decodeOpcode P b with
    | none => .error (.unknownOpcode b)
    | some c =>
      match operandFrom c.operandCount 1 rest with
      | .error e => .error e
      | .ok op1 =>
        match operandFrom c.operandCount 2 rest with
        | .error e => .error e
        | .ok op2 => .ok (assemble c.mnemonic op1 op2, rest.drop c.operandCount)

/-- The encoder: opcode byte, then the operand bytes in the order of R74 (R71, R83). -/
def encode (P : Params) : Instr → List Byte
  | .hlt => [P.opcode .hlt]
  | .ldi reg imm => [P.opcode .ldi, reg, imm]
  | .prn reg => [P.opcode .prn, reg]
  | .mul a b => [P.opcode .mul, a, b]
  | .add a b => [P.opcode .add, a, b]
  | .push reg => [P.opcode .push, reg]
  | .pop reg => [P.opcode .pop, reg]

/-- The three bytes that the opcode table's numbering gives a word `w` of `nbits` bits: bit 0 is the least
significant bit of the first byte, later bytes count on, and every bit from `nbits` up is 0. -/
def tableBytes (nbits w : Nat) : List Byte :=
  [0, 1, 2].map fun k => BitVec.ofNat 8 ((w % 2 ^ nbits) / 256 ^ k)

/-- What the decoder reads from a table word, at the default parameters. -/
def decodeTableWord (nbits w : Nat) : Option Instr :=
  match decode Config.params (tableBytes nbits w) with
  | .ok (i, _) => some i
  | .error _ => none

end Sys2Proof
end

