-- ==== Sys2Proof/Machine/State.lean ====
section
/-! DEFINITION. The state of the core: the tuple of R20 and nothing else (R34, R37), as plain data, and the
state after reset (R36, R230). Memory's operations stand in Machine/Memory.lean, the registers' in
Machine/Ops.lean. -/

namespace Sys2Proof.Machine

/-- The control FSM (R30, R100). `faulted` is the spec's own terminal state (D2, log entry 6). -/
inductive Fsm where
  | running | halted | faulted
  deriving DecidableEq, Repr

/-- The five fatal conditions of R200. No cycle raises `unsupportedOp`, whose code is reserved (R204, log
entry 13), and `programLoadFailure` is the Loader's, before the run (R208). -/
inductive Cause where
  | unknownOpcode | outOfBounds | invalidRegister | unsupportedOp | programLoadFailure
  deriving DecidableEq, Repr

/-- What a cycle can raise, with the offending value (R11 `raise`, R201 to R203). An address is an integer:
PUSH at sp = 0 addresses -1 (R151). -/
inductive Raise where
  | unknownOpcode (b : Byte)
  | outOfBounds (a : Int)
  | invalidRegister (i : Byte)
  deriving DecidableEq, Repr

/-- The fault record (R31, R206). `ir` is none if the opcode fetch itself faulted; `info` is the offending
address, register index or opcode byte as an integer (DESIGN CHOICE of the spec, D6, log entry 19). -/
structure FaultRecord where
  cause : Cause
  pc : Nat
  ir : Option Byte
  info : Int
  deriving DecidableEq, Repr

/-- Memory contents (R35): the cells that do not hold 0, by strictly rising address. An unlisted address
reads as 0, its reset value (R36, log entry 11). -/
abbrev Memory := List Host.Cell

/-- R20. -/
structure State where
  /-- R35. -/
  mem : Memory
  /-- R21: R0 .. R7. -/
  x : Vector Byte 8
  /-- R24: an unbounded natural number (D7, log entry 10). -/
  pc : Nat
  /-- R26: an unbounded natural number (D7, log entry 10). -/
  sp : Nat
  /-- R28: the opcode byte fetched last. -/
  ir : Byte
  /-- R30. -/
  fsm : Fsm
  /-- R31. -/
  fault : Option FaultRecord
  /-- R32: the bytes PRN emitted, oldest first. -/
  out : List Byte
  deriving DecidableEq, Repr

/-- The machine stops outside its own FSM. NOTHING RAISES THIS, so it has no constructor: every fatal
condition of the spec has an entry the spec describes (R206), and the model takes it as a next state. -/
inductive Fault where
  deriving DecidableEq, Repr

/-- Why a step has no meaning. -/
inductive Refusal where
  /-- An instruction not modelled yet; raised by a refused arm of `exec` alone, and every arm has its
  meaning. Safe: the model would stop where the hardware goes on. -/
  | notModelled (mnemonic : String)
  deriving DecidableEq, Repr

/-- The state after reset at given parameters (R36, R230): memory and registers zero, pc 0, sp STACK_BASE,
Running, no fault, no output. `ir` is unspecified by R36; it is 0 here (DESIGN CHOICE, unsafe, log entry 4). -/
def State.resetWith (P : Params) : State where
  mem := []
  x := Vector.replicate 8 0
  pc := 0
  sp := P.stackBase
  ir := 0
  fsm := .running
  fault := none
  out := []

/-- The state after reset at the default parameters. -/
def State.reset : State := State.resetWith Config.params

end Sys2Proof.Machine
end

