-- ==== Sys2Proof/Machine/Memory.lean ====
section
/-! DEFINITION. The byte array of R35 as a sorted list of its nonzero cells. Bounds are no concern of this
file: `State.memRead` and `State.memWrite` of Machine/Ops.lean check them (R52). -/

namespace Sys2Proof.Machine

/-- The byte at an address: the listed one, else 0 (R36). -/
def Memory.read (a : Nat) : Memory → Byte
  | [] => 0
  | (b, v) :: rest => if b = a then v else Memory.read a rest

/-- The list without what it says of address `a`, and with `(a, v)` unless `v` is 0, in address order. -/
def Memory.write (a : Nat) (v : Byte) : Memory → Memory
  | [] => if v = 0 then [] else [(a, v)]
  | (b, w) :: rest =>
    if a < b then (if v = 0 then (b, w) :: rest else (a, v) :: (b, w) :: rest)
    else if a = b then (if v = 0 then rest else (a, v) :: rest)
    else (b, w) :: Memory.write a v rest

/-- The canonical form: addresses strictly rising from `lo` on, and no cell that holds 0. -/
def Memory.wfFrom (lo : Nat) : Memory → Bool
  | [] => true
  | (a, v) :: rest => decide (lo ≤ a) && decide (v ≠ 0) && Memory.wfFrom (a + 1) rest

/-- The canonical form of a whole memory. -/
def Memory.wf (m : Memory) : Bool := Memory.wfFrom 0 m

/-- Bytes written at ascending addresses from `a` on (R231, R53). -/
def Memory.load (a : Nat) : List Byte → Memory → Memory
  | [], m => m
  | b :: bs, m => Memory.load (a + 1) bs (Memory.write a b m)

end Sys2Proof.Machine
end

