-- ==== Sys2Proof/Machine/Ops.lean ====
section
/-! DEFINITION. The named operations over registers and memory (R11, R21, R52), taking a fatal condition
(R206, R207), and the frame of a cycle's second half that every instruction shares: latch ir, run the one
execute rule, advance (R105, R106). There is no return from a fault (R209) and no flag (R33). -/

namespace Sys2Proof.Machine

/-- R200: the condition a raise belongs to. -/
def Raise.cause : Raise → Cause
  | .unknownOpcode _ => .unknownOpcode
  | .outOfBounds _ => .outOfBounds
  | .invalidRegister _ => .invalidRegister

/-- R200, column "info recorded": the opcode byte, the address or the index byte. -/
def Raise.info : Raise → Int
  | .unknownOpcode b => b.toNat
  | .outOfBounds a => a
  | .invalidRegister i => i.toNat

/-- R200: the numeric cause codes, which are the spec's own (D5, log entry 19). -/
def Cause.code : Cause → Nat
  | .unknownOpcode => 1
  | .outOfBounds => 2
  | .invalidRegister => 3
  | .unsupportedOp => 4
  | .programLoadFailure => 5

/-- `x[i]` (R11, R21): the register, or InvalidRegister for an index of 8 or more (R203). -/
def State.readReg (i : Byte) (s : State) : Except Raise Byte :=
  if h : i.toNat < 8 then .ok s.x[i.toNat] else .error (.invalidRegister i)

/-- `x[i] <- v` (R11, R21, R23), with the same check. -/
def State.writeReg (i v : Byte) (s : State) : Except Raise State :=
  if h : i.toNat < 8 then .ok { s with x := s.x.set i.toNat v } else .error (.invalidRegister i)

/-- R52: an address is an integer, and those in `[0, N)` exist. -/
abbrev InMemory (P : Params) (a : Int) : Prop := 0 ≤ a ∧ a < P.memSize

/-- `MemRead(addr, 1)` (R52). -/
def State.memRead (P : Params) (a : Int) (s : State) : Except Raise Byte :=
  if InMemory P a then .ok (s.mem.read a.toNat) else .error (.outOfBounds a)

/-- `MemWrite(addr, 1, v)` (R52). -/
def State.memWrite (P : Params) (a : Int) (v : Byte) (s : State) : Except Raise State :=
  if InMemory P a then .ok { s with mem := s.mem.write a.toNat v } else .error (.outOfBounds a)

/-- `ir <- byte` (R28, R101). -/
def State.latchIr (b : Byte) (s : State) : State := { s with ir := b }

/-- `sp <- v` (R26). -/
def State.setSp (v : Nat) (s : State) : State := { s with sp := v }

/-- `Out(v)` (R124): the output port takes every byte and feeds nothing back (log entry 16). -/
def State.emit (v : Byte) (s : State) : State := { s with out := s.out ++ [v] }

/-- `state <- Halted` (R11, R160). -/
def State.halt (s : State) : State := { s with fsm := .halted }

/-- R106: `if fsm = Running: pc <- pc + 1 + (ir >> 6)`, from the latched opcode byte and not from memory. -/
def State.advance (s : State) : State :=
  match s.fsm with
  | .running => { s with pc := s.pc + 1 + operandCountOf s.ir }
  | .halted | .faulted => s

/-- Fault entry (R206): the record is written and the FSM becomes Faulted; applied to the state at the start
of the cycle, so nothing else changes (R207, R109; the spec's D2, D3, D6, log entries 5 and 6). -/
def State.enterFault (r : Raise) (ir : Option Byte) (s : State) : State :=
  { s with fsm := .faulted, fault := some { cause := r.cause, pc := s.pc, ir := ir, info := r.info } }

/-- The part of a cycle after its operand fetch (R109): ir holds the opcode byte of mnemonic `m`, the one
execute rule runs (R104), and pc advances; or the rule raises and the whole cycle is undone (R207). -/
def cycle (P : Params) (m : Mnemonic) (rule : State → Except Raise State) (s : State) :
    Host.Outcome State Fault Refusal :=
  match rule (s.latchIr (P.opcode m)) with
  | .ok t => .next t.advance
  | .error r => .next (s.enterFault r (some (P.opcode m)))

end Sys2Proof.Machine
end

