-- ==== Sys2Proof/Machine/Alu.lean ====
section
/-! DEFINITION. The ALU (R130 to R133) and its two instructions, MUL (R134) and ADD (R137). No flag, carry or
wider result exists (R33, R133). -/

namespace Sys2Proof.Machine

/-- The exact sum or product of the unsigned values (R131). -/
def exactResult (op : AluOp) (va vb : Byte) : Nat :=
  match op with
  | .mul => va.toNat * vb.toNat
  | .add => va.toNat + vb.toNat

/-- The result byte: the exact result modulo 256 (R131, R23). -/
def aluResult (op : AluOp) (va vb : Byte) : Byte := BitVec.ofNat 8 (exactResult op va vb)

/-- R131 `apply(op, a, b)`: both registers are read, a first, before a is written (D22, log entry 20). -/
def aluRule (op : AluOp) (a b : Byte) (s : State) : Except Raise State :=
  match s.readReg a with
  | .error r => .error r
  | .ok va =>
    match s.readReg b with
    | .error r => .error r
    | .ok vb => s.writeReg a (aluResult op va vb)

/-- MUL (R134). -/
def execMul (regA regB : Byte) (s : State) : Host.Outcome State Fault Refusal :=
  cycle Config.params .mul (aluRule .mul regA regB) s

/-- ADD (R137). -/
def execAdd (regA regB : Byte) (s : State) : Host.Outcome State Fault Refusal :=
  cycle Config.params .add (aluRule .add regA regB) s

end Sys2Proof.Machine
end

