-- ==== Sys2Proof/Machine/Halt.lean ====
section
/-! DEFINITION. HLT (R160), the only system instruction. -/

namespace Sys2Proof.Machine

/-- R160: `fsm <- Halted`; the advance that follows then leaves pc at the HLT byte (R106, R161). -/
def hltRule (s : State) : Except Raise State := .ok s.halt

/-- HLT (R160). -/
def execHlt (s : State) : Host.Outcome State Fault Refusal :=
  cycle Config.params .hlt hltRule s

end Sys2Proof.Machine
end

