-- ==== Sys2Proof/Machine/Load.lean ====
section
/-! DEFINITION. Load-immediate and print: LDI (R120) and PRN (R123). -/

namespace Sys2Proof.Machine

/-- R120: `x[op1] <- op2`. -/
def ldiRule (reg imm : Byte) (s : State) : Except Raise State := s.writeReg reg imm

/-- R123: the register's value goes to the output port. -/
def prnRule (reg : Byte) (s : State) : Except Raise State :=
  match s.readReg reg with
  | .ok v => .ok (s.emit v)
  | .error r => .error r

/-- LDI (R120). -/
def execLdi (reg imm : Byte) (s : State) : Host.Outcome State Fault Refusal :=
  cycle Config.params .ldi (ldiRule reg imm) s

/-- PRN (R123). -/
def execPrn (reg : Byte) (s : State) : Host.Outcome State Fault Refusal :=
  cycle Config.params .prn (prnRule reg) s

end Sys2Proof.Machine
end

