-- ==== Sys2Proof/Machine/Stack.lean ====
section
/-! DEFINITION. The stack engine: PUSH (R150, R151) and POP (R153, R154). The stack grows down in the memory
that holds the program; its only limits are memory's own (R156). -/

namespace Sys2Proof.Machine

/-- The address PUSH stores to: `sp - 1` as an integer, -1 when sp = 0 (R150, R151; D8, log entry 9). -/
def State.pushAddress (s : State) : Int := (s.sp : Int) - 1

/-- The address POP reads: `sp` (R153). -/
def State.popAddress (s : State) : Int := s.sp

/-- R150: read the register, store it below the top, move sp there. -/
def pushRule (P : Params) (reg : Byte) (s : State) : Except Raise State :=
  match s.readReg reg with
  | .error r => .error r
  | .ok v =>
    match s.memWrite P s.pushAddress v with
    | .error r => .error r
    | .ok t => .ok (t.setSp s.pushAddress.toNat)

/-- R153: the index is checked, then the byte at sp is read and written to the register, and sp moves up.
The byte stays in memory. -/
def popRule (P : Params) (reg : Byte) (s : State) : Except Raise State :=
  match s.readReg reg with
  | .error r => .error r
  | .ok _ =>
    match s.memRead P s.popAddress with
    | .error r => .error r
    | .ok v =>
      match s.writeReg reg v with
      | .error r => .error r
      | .ok t => .ok (t.setSp (s.sp + 1))

/-- PUSH (R150). -/
def execPush (reg : Byte) (s : State) : Host.Outcome State Fault Refusal :=
  cycle Config.params .push (pushRule Config.params reg) s

/-- POP (R153). -/
def execPop (reg : Byte) (s : State) : Host.Outcome State Fault Refusal :=
  cycle Config.params .pop (popRule Config.params reg) s

end Sys2Proof.Machine
end

