-- ==== Sys2Proof/Machine/Operands.lean ====
section
/-! DEFINITION. Fetch, decode and operand fetch (R101 to R103), in the order of R205 items 1 to 4. Operands
have one form each, the byte at pc+1 or pc+2 (R73, R74); no operand changes state when it is fetched. -/

namespace Sys2Proof.Machine

/-- What the first half of a cycle gives: an instruction, or a raise with the opcode byte if that was
fetched (R206). -/
inductive Fetched where
  | instr (i : Instr)
  | raised (r : Raise) (ir : Option Byte)
  deriving DecidableEq, Repr

/-- R103: operand byte `k` of an instruction with `n` of them, from address pc + k. An operand beyond `n` is
not read (R29); it stands as 0, which `assemble` ignores. -/
def State.fetchOperand (P : Params) (n k : Nat) (s : State) : Except Raise Byte :=
  if k ≤ n then s.memRead P ((s.pc + k : Nat) : Int) else .ok 0

/-- R101 to R103: the opcode byte, its class, then exactly the operand bytes it has, in ascending order. -/
def State.fetch (P : Params) (s : State) : Fetched :=
  match s.memRead P (s.pc : Int) with
  | .error r => .raised r none
  | .ok b =>
    match decodeOpcode P b with
    | none => .raised (.unknownOpcode b) (some b)
    | some c =>
      match s.fetchOperand P c.operandCount 1 with
      | .error r => .raised r (some b)
      | .ok op1 =>
        match s.fetchOperand P c.operandCount 2 with
        | .error r => .raised r (some b)
        | .ok op2 => .instr (assemble c.mnemonic op1 op2)

/-- The bytes of memory from `a` on that one instruction can span: three of them, less those that do not
exist (R70, R52). -/
def State.codeAt (P : Params) (a : Nat) (s : State) : List Byte :=
  ((List.range 3).filter fun k => decide (a + k < P.memSize)).map fun k => s.mem.read (a + k)

/-- One step (R109) with the execute half given as `run`. In Halted and Faulted no cycle starts and the state
stays as it is (R108, R110; log entry 8). -/
def stepThrough (P : Params) (run : Instr → State → Host.Outcome State Fault Refusal) (s : State) :
    Host.Outcome State Fault Refusal :=
  match s.fsm with
  | .halted | .faulted => .next s
  | .running =>
    match s.fetch P with
    | .raised r ir => .next (s.enterFault r ir)
    | .instr i => run i s

/-- The bytes written at ascending addresses from `a` on, those at N or beyond left out. -/
def State.placeBytes (P : Params) (a : Nat) (bytes : List Byte) (s : State) : State :=
  { s with mem := Memory.load a (bytes.take (P.memSize - a)) s.mem }

end Sys2Proof.Machine
end

