-- ==== Sys2Proof/Machine/Step.lean ====
section
/-! DEFINITION. The step of the machine at the default parameters, and the state in which its next step runs
a given instruction word. -/

namespace Sys2Proof.Machine

/-- R109: one cycle. -/
def step (s : State) : Host.Outcome State Fault Refusal := stepThrough Config.params exec s

/-- `s` with the table word `w` at pc, ready to be fetched: the load of a program from outside (R231, R236;
log entry 17). The fetch needs the FSM Running, hence no fault record (R31). -/
def State.withFetchWord (s : State) (nbits w : Nat) : State :=
  { s.placeBytes Config.params s.pc (tableBytes nbits w) with fsm := .running, fault := none }

end Sys2Proof.Machine
end

