-- ==== Sys2Proof/Machine/Loader.lean ====
section
/-! DEFINITION. The Loader's interface to the core (R208, R231, R234, R235): the launch state of a program
image, and the image's text form. The Loader's file access is out of scope (R6 a, c); a text that cannot be
read is `none`. -/

namespace Sys2Proof.Machine

/-- Why no run starts; each is ProgramLoadFailure (R208, R234; the spec's D13, log entry 14). -/
inductive LoadError where
  /-- "file absent". -/
  | unreadable
  /-- A line's prefix holds something other than 0 and 1. -/
  | notBinary (line : List Char)
  /-- A literal above 255. -/
  | aboveByte (line : List Char)
  /-- More than N bytes. -/
  | imageTooLong (length : Nat)
  deriving DecidableEq, Repr

/-- R200: the cause of every load error, code 5. -/
def LoadError.cause (_ : LoadError) : Cause := .programLoadFailure

/-- R231: the reset state with the image at addresses 0, 1, 2, ...; no state for an image of more than N
bytes (R234). -/
def launchWith (P : Params) (image : List Byte) : Except LoadError State :=
  if image.length ≤ P.memSize then
    .ok { State.resetWith P with mem := Memory.load 0 image (State.resetWith P).mem }
  else .error (.imageTooLong image.length)

/-- The lines of a text: the pieces between newline characters. -/
def splitLines : List Char → List (List Char)
  | [] => [[]]
  | c :: cs =>
    if c = '\n' then [] :: splitLines cs
    else
      match splitLines cs with
      | [] => [[c]]
      | l :: ls => (c :: l) :: ls

/-- The part of a line before its first `#`. -/
def stripComment (line : List Char) : List Char := line.takeWhile fun c => c != '#'

/-- The characters that trimming removes: blank, tab, newline, carriage return (PRESUMED, log entry 14). -/
def isBlank (c : Char) : Bool := c == ' ' || c == '\t' || c == '\n' || c == '\r'

/-- A line without its blanks at both ends. -/
def trim (line : List Char) : List Char :=
  ((line.dropWhile isBlank).reverse.dropWhile isBlank).reverse

/-- The value of a base-2 literal, most significant digit first. -/
def binaryValue (digits : List Char) : Nat :=
  digits.foldl (fun v c => 2 * v + (if c = '1' then 1 else 0)) 0

/-- R234: what one line contributes: nothing, one byte, or a load failure. -/
def parseLine (line : List Char) : Except LoadError (Option Byte) :=
  match trim (stripComment line) with
  | [] => .ok none
  | c :: cs =>
    if (c :: cs).all fun d => d == '0' || d == '1' then
      if binaryValue (c :: cs) ≤ 255 then .ok (some (BitVec.ofNat 8 (binaryValue (c :: cs))))
      else .error (.aboveByte (c :: cs))
    else .error (.notBinary (c :: cs))

/-- The bytes of the lines, in order; an empty line consumes no address (R234). -/
def parseLines : List (List Char) → Except LoadError (List Byte)
  | [] => .ok []
  | l :: ls =>
    match parseLine l with
    | .error e => .error e
    | .ok b =>
      match parseLines ls with
      | .error e => .error e
      | .ok bs => .ok (b.toList ++ bs)

/-- R234: from the image text (`none` if it cannot be read) to the launch state. -/
def loadText (P : Params) : Option (List Char) → Except LoadError State
  | none => .error .unreadable
  | some text =>
    match parseLines (splitLines text) with
    | .error e => .error e
    | .ok image => launchWith P image

/-- A byte as the image text writes it: eight binary digits, most significant first (R9, R234). -/
def byteDigits (b : Byte) : List Char :=
  [7, 6, 5, 4, 3, 2, 1, 0].map fun k => if b.getLsbD k then '1' else '0'

end Sys2Proof.Machine
end

