-- ==== Sys2Proof/Machine/Parametric.lean ====
section
/-! DEFINITION. The machine at every parameter value (R7, R79): the same execute rules, fetch and fault entry
as the machine at the defaults, which it gives back at `Config.params`. -/

namespace Sys2Proof.Machine

/-- R105 at parameters `P`: exactly one rule per instruction. -/
def execWith (P : Params) : Instr → State → Host.Outcome State Fault Refusal
  | .hlt => cycle P .hlt hltRule
  | .ldi reg imm => cycle P .ldi (ldiRule reg imm)
  | .prn reg => cycle P .prn (prnRule reg)
  | .mul a b => cycle P .mul (aluRule .mul a b)
  | .add a b => cycle P .add (aluRule .add a b)
  | .push reg => cycle P .push (pushRule P reg)
  | .pop reg => cycle P .pop (popRule P reg)

/-- R109 at parameters `P`. -/
def stepWith (P : Params) (s : State) : Host.Outcome State Fault Refusal := stepThrough P (execWith P) s

/-- R79: "A model that takes the opcode assignment as a parameter must reject an assignment that breaks
either condition." -/
def machineOf (P : Params) : Option Host.Core :=
  if P.wf then
    some { State := State, Fault := Fault, Refusal := Refusal, step := stepWith P, reset := State.resetWith P }
  else none

/-- R107, R113: `k` cycles; a terminal state stays as it is. -/
def runWith (P : Params) : Nat → State → Host.Outcome State Fault Refusal
  | 0, s => .next s
  | k + 1, s =>
    match stepWith P s with
    | .next t => runWith P k t
    | .fault f => .fault f
    | .refused r => .refused r

/-- R113 `run()`: the cycles until the FSM is terminal, which R114 bounds by N + 1. -/
def runToEnd (P : Params) (s : State) : Host.Outcome State Fault Refusal := runWith P (P.memSize + 1) s

end Sys2Proof.Machine
end

