-- ==== Sys2Proof/Machine/Ports.lean ====
section
/-! DEFINITION. The read-only ports of R15 that no step depends on: status and trace. (The port `out` is
`State.out`, `load` is Machine/Loader.lean, `run` is Machine/Parametric.lean.) -/

namespace Sys2Proof.Machine

/-- R15, `status`: Running, Halted, or Faulted with its record. -/
inductive Status where
  | running
  | halted
  | faulted (record : Option FaultRecord)
  deriving DecidableEq, Repr

/-- The status port of a state. -/
def State.status (s : State) : Status :=
  match s.fsm with
  | .running => .running
  | .halted => .halted
  | .faulted => .faulted s.fault

/-- R222: what the Tracer observes; a byte outside memory is absent (D14, log entry 15). -/
structure TraceObs where
  pc : Nat
  bytes : Vector (Option Byte) 3
  x : Vector Byte 8
  deriving DecidableEq, Repr

/-- The byte at an address as the Tracer sees it: it never raises (R222). -/
def State.peek (P : Params) (a : Nat) (s : State) : Option Byte :=
  if a < P.memSize then some (s.mem.read a) else none

/-- R222: `(pc, mem[pc], mem[pc+1], mem[pc+2], x[0], ..., x[7])`. -/
def State.trace (P : Params) (s : State) : TraceObs where
  pc := s.pc
  bytes := #v[s.peek P s.pc, s.peek P (s.pc + 1), s.peek P (s.pc + 2)]
  x := s.x

end Sys2Proof.Machine
end

