-- ==== Sys2Proof/Safety.lean ====
section
/-! DEFINITION. The terms claims are stated in: how a run ends, the invariant of the core's states, and
R205's order of checks written out over the raw bytes at pc. -/

namespace Sys2Proof.Machine

/-- R113: the two ends of a run. -/
abbrev State.NormalEnd (s : State) : Prop := s.fsm = .halted
abbrev State.AbnormalEnd (s : State) : Prop := s.fsm = .faulted

/-- A safe step never ends in a fatal condition. -/
abbrev State.Safe (s : State) : Prop := s.fsm ≠ .faulted

/-- What holds of every state a run from a launch state reaches, and is kept by every step. -/
structure State.Inv (P : Params) (s : State) : Prop where
  /-- Equal memories are equal lists. -/
  memCanonical : s.mem.wf = true
  /-- R35: only addresses 0 .. N-1 hold bytes. -/
  memInside : ∀ c ∈ s.mem, c.1 < P.memSize
  /-- R24: pc reaches N and no further. -/
  pcBound : s.pc ≤ P.memSize
  /-- R26: sp is within 0 .. max(N, STACK_BASE). -/
  spBound : s.sp ≤ max P.memSize P.stackBase
  /-- R31: there is a record exactly in Faulted. -/
  recordIffFaulted : s.fault.isSome ↔ s.fsm = .faulted
  /-- R206: the record's pc is the faulting instruction's, where pc still stands (R207). -/
  recordPc : ∀ r, s.fault = some r → r.pc = s.pc
  /-- R204, R208: a run raises three of the five conditions. -/
  recordCause : ∀ r, s.fault = some r →
    r.cause = .unknownOpcode ∨ r.cause = .outOfBounds ∨ r.cause = .invalidRegister
  /-- R206: only a failed opcode fetch leaves no opcode in the record, and it fails at pc = N. -/
  recordNoIr : ∀ r, s.fault = some r → r.ir = none → r.cause = .outOfBounds ∧ r.info = P.memSize

/-- R205 as one chain of conditions over the three bytes at pc: the record of the fatal condition that the
cycle at `s` raises, or none. It calls neither the decoder nor an execute rule. -/
def State.firstFault (P : Params) (s : State) : Option FaultRecord :=
  let b := s.mem.read s.pc
  let op1 := s.mem.read (s.pc + 1)
  let op2 := s.mem.read (s.pc + 2)
  let n := b.toNat / 64
  if P.memSize ≤ s.pc then some { cause := .outOfBounds, pc := s.pc, ir := none, info := s.pc }
  else if b ∉ Mnemonic.all.map P.opcode then
    some { cause := .unknownOpcode, pc := s.pc, ir := some b, info := b.toNat }
  else if 1 ≤ n ∧ P.memSize ≤ s.pc + 1 then
    some { cause := .outOfBounds, pc := s.pc, ir := some b, info := (s.pc : Int) + 1 }
  else if n = 2 ∧ P.memSize ≤ s.pc + 2 then
    some { cause := .outOfBounds, pc := s.pc, ir := some b, info := (s.pc : Int) + 2 }
  else if b ≠ P.opcode .hlt ∧ 8 ≤ op1.toNat then
    some { cause := .invalidRegister, pc := s.pc, ir := some b, info := op1.toNat }
  else if (b = P.opcode .mul ∨ b = P.opcode .add) ∧ 8 ≤ op2.toNat then
    some { cause := .invalidRegister, pc := s.pc, ir := some b, info := op2.toNat }
  else if b = P.opcode .push ∧ (s.sp = 0 ∨ P.memSize < s.sp) then
    some { cause := .outOfBounds, pc := s.pc, ir := some b, info := (s.sp : Int) - 1 }
  else if b = P.opcode .pop ∧ P.memSize ≤ s.sp then
    some { cause := .outOfBounds, pc := s.pc, ir := some b, info := s.sp }
  else none

end Sys2Proof.Machine
end

