-- ==== Sys2Proof/Certificates/Slice0/Obligations.lean ====
section
/-! DEFINITION. The statements for the provers, from the numbered rules of spec/. `exec`, `step` and `core` are
the machine at the default parameters; a statement over every `P : Params` is about the parametric machine,
which `CoreRunsAreDefaultParametricRuns` ties to the default one. Values rest on the spec's rules unless a
docstring names a log entry. -/

open Sys2Proof Sys2Proof.Machine

/-! ## Reset, launch, load -/

/-- R36, R230: what reset leaves, at every parameter value. The value of `ir` is the model's choice (log entry
4) and is not stated. -/
def Obligations.ResetLeavesSpecifiedValues : Prop :=
  State.reset = State.resetWith Config.params ∧
  ∀ P : Params,
    (∀ a : Nat, a < P.memSize → (State.resetWith P).memRead P a = .ok 0) ∧
    (∀ i : Byte, i.toNat < 8 → (State.resetWith P).readReg i = .ok 0) ∧
    (State.resetWith P).pc = 0 ∧ (State.resetWith P).sp = P.stackBase ∧
    (State.resetWith P).fsm = .running ∧ (State.resetWith P).fault = none ∧ (State.resetWith P).out = []

/-- R231: the launch state, at every parameter value and for every image that fits. -/
def Obligations.LaunchWritesImageFromZero : Prop :=
  ∀ (P : Params) (image : List Byte), image.length ≤ P.memSize →
    ∃ s, launchWith P image = .ok s ∧
      (∀ (a : Nat) (h : a < image.length), s.memRead P a = .ok image[a]) ∧
      (∀ a : Nat, image.length ≤ a → a < P.memSize → s.memRead P a = .ok 0) ∧
      s = { State.resetWith P with mem := s.mem } ∧ s.pc = 0

/-- R234: an image of more than N bytes and an unreadable text start no run (D13, log entry 14). -/
def Obligations.OverlongImageIsRefused : Prop :=
  ∀ (P : Params) (image : List Byte), P.memSize < image.length →
    launchWith P image = .error (.imageTooLong image.length) ∧ loadText P none = .error .unreadable

/-- R234, R235: a text of lines, each a byte as eight binary digits or nothing, and each with a comment, loads
exactly the bytes, in order; a comment-only line consumes no address. -/
def Obligations.LoaderReadsBytesAndDropsComments : Prop :=
  ∀ (P : Params) (lines : List (Option Byte × List Char)), (∀ l ∈ lines, '\n' ∉ l.2) →
    loadText P (some (lines.flatMap fun l =>
        l.1.elim [] byteDigits ++ [' ', '#'] ++ l.2 ++ ['\n'])) =
      launchWith P (lines.filterMap fun l => l.1)

/-- R234: one line whose prefix before `#` holds a visible character other than 0 and 1 makes the whole text a
load failure (D13, log entry 14). -/
def Obligations.NonBinaryLineIsRefused : Prop :=
  ∀ (P : Params) (text line : List Char) (c : Char), line ∈ splitLines text →
    c ∈ line.takeWhile (fun d => d != '#') → c ≠ '0' → c ≠ '1' → isBlank c = false →
    ∃ e, loadText P (some text) = .error e

/-! ## Invariant -/

def Obligations.InvariantHoldsAtReset : Prop := State.reset.Inv Config.params

def Obligations.InvariantHoldsAtEveryLaunch : Prop :=
  ∀ (P : Params) (image : List Byte) (s : State), launchWith P image = .ok s → s.Inv P

/-- Every step keeps the canonical memory, its bounds, the bounds of pc (R24) and sp (R26), and the fault
record's tie to the FSM (R31, R206). The list's form is the model's own choice (log entry 11), the unbounded pc
and sp (D7, log entry 10) and the record (D2, D6, log entries 6 and 19) the spec's. -/
def Obligations.EveryStepKeepsInvariant : Prop :=
  ∀ s t : State, s.Inv Config.params → step s = .next t → t.Inv Config.params

/-! ## Decoder and encoder -/

/-- R70, R74, R77, R79: under every accepted assignment, every instruction, with every operand byte, decodes
back from its encoding, whatever bytes follow. -/
def Obligations.DecodeInvertsEncode : Prop :=
  ∀ (P : Params), P.wf = true → ∀ (i : Instr) (rest : List Byte), decode P (encode P i ++ rest) = .ok (i, rest)

/-- Each byte string has one meaning: what decodes to an instruction starts with its encoding. -/
def Obligations.EncodeInvertsDecode : Prop :=
  ∀ (P : Params), P.wf = true → ∀ (bytes rest : List Byte) (i : Instr),
    decode P bytes = .ok (i, rest) → bytes = encode P i ++ rest

/-- R70. -/
def Obligations.LengthComesFromTopTwoBits : Prop :=
  ∀ (P : Params), P.wf = true → ∀ (b : Byte) (tail rest : List Byte) (i : Instr),
    decode P (b :: tail) = .ok (i, rest) →
      b.toNat / 64 ≤ 2 ∧ rest = tail.drop (b.toNat / 64) ∧ b.toNat / 64 ≤ tail.length

/-- R78, R201: a byte outside the assignment is UnknownOpcode, raised whether or not operand bytes exist, with
nothing changed but the FSM and the record (D2, D6, log entries 6 and 19). -/
def Obligations.UnknownOpcodeFaultsBeforeOperands : Prop :=
  ∀ (P : Params) (s : State) (b : Byte), s.fsm = .running → s.memRead P s.pc = .ok b →
    (∀ m, P.opcode m ≠ b) →
    decodeOpcode P b = none ∧
    stepWith P s = .next { s with
      fsm := .faulted
      fault := some { cause := .unknownOpcode, pc := s.pc, ir := some b, info := b.toNat } }

/-- R79: the parametric machine exists exactly for the assignments that meet both conditions. -/
def Obligations.BadAssignmentsAreRejected : Prop :=
  ∀ P : Params, machineOf P = none ↔
    ¬ ((∀ m, (P.opcode m).toNat / 64 = m.operandCount) ∧ ∀ m n, P.opcode m = P.opcode n → m = n)

/-- R77, R80 and R74 on words written out by hand: one of each format, and 0x00. The opcodes of MUL, ADD, PUSH,
POP and PRN are the presumed defaults (log entry 3). -/
def Obligations.TableWordsDecodeAsWrittenOut : Prop :=
  decodeTableWord 8 0b00000001 = some .hlt ∧
  decodeTableWord 24 0b00000110_00000001_10000010 = some (.ldi 1 6) ∧
  decodeTableWord 16 0b00000011_01000111 = some (.prn 3) ∧
  decodeTableWord 24 0b00000010_00000001_10100010 = some (.mul 1 2) ∧
  decodeTableWord 24 0b00000010_00000001_10100000 = some (.add 1 2) ∧
  decodeTableWord 16 0b00000111_01000101 = some (.push 7) ∧
  decodeTableWord 16 0b11111111_01000110 = some (.pop 255) ∧
  decodeTableWord 8 0b00000000 = none

/-! ## The step -/

/-- R109: a step in Running whose bytes at pc decode is the execute half of that instruction. `exec` itself
latches ir and advances pc. -/
def Obligations.StepRunsDecodedInstruction : Prop :=
  ∀ (s : State) (i : Instr) (rest : List Byte), s.fsm = .running →
    decode Config.params (s.codeAt Config.params s.pc) = .ok (i, rest) → step s = exec i s

/-- The next step after a word is placed at pc runs that word's instruction (log entry 17). -/
def Obligations.PlacedWordRunsNext : Prop :=
  ∀ (s : State) (nbits w : Nat) (i : Instr), s.mem.wf = true → s.pc + 3 ≤ Config.params.memSize →
    decodeTableWord nbits w = some i →
    step (s.withFetchWord nbits w) = exec i (s.withFetchWord nbits w)

/-- R14: each cycle produces a next state or a fault. Two clauses are choices: that a fatal condition is a next
state (D2, D3, log entry 6), and that a step from Halted or Faulted, where R108 starts no cycle, answers next
(the model's own, log entry 8). So no step faults or refuses. -/
def Obligations.EveryStepAnswersNext : Prop := ∀ s : State, ∃ t, step s = .next t

/-- R112: `b` is the byte as fetched, so a PUSH that overwrites it in the same step changes nothing (R106). -/
def Obligations.PcAdvancesByOpcodeTopBits : Prop :=
  ∀ (s t : State) (b : Byte), s.fsm = .running → s.memRead Config.params s.pc = .ok b →
    b ≠ Config.params.opcode .hlt → step s = .next t → t.fsm ≠ .faulted →
    t.pc = s.pc + 1 + b.toNat / 64 ∧ t.fsm = .running

/-- R110, R160: from Running a step ends in Halted exactly when the byte at pc is HLT's, and then pc, sp,
registers, memory and output are as before. -/
def Obligations.StepHaltsExactlyAtHlt : Prop :=
  ∀ s t : State, s.fsm = .running → step s = .next t →
    (t.fsm = .halted ↔ s.memRead Config.params s.pc = .ok 0b00000001#8) ∧
    (t.fsm = .halted → t = { s with fsm := .halted, ir := 0b00000001#8 })

/-- R108, R110, R217: however many further steps, a terminal state stays as it is (log entry 8). -/
def Obligations.TerminalStatesStay : Prop :=
  ∀ (k : Nat) (s : State), s.fsm ≠ .running → Host.Core.run core k s = .next s

/-- R205: the fatal condition of a cycle, if any, is the first that applies in the rule's order, with the
record of R206; else the cycle completes (D3, D4, D6, log entries 6, 7 and 19). -/
def Obligations.FaultsFollowTheCheckOrder : Prop :=
  ∀ (P : Params), P.wf = true → ∀ s : State, s.fsm = .running →
    (∀ r, s.firstFault P = some r → stepWith P s = .next { s with fsm := .faulted, fault := some r }) ∧
    (s.firstFault P = none → ∃ t, stepWith P s = .next t ∧ t.Safe ∧ t.fault = s.fault)

/-- R207, R109: a step that ends in Faulted changes the FSM and the record alone (D3, log entries 5 and 6). That
the record holds pc, and the opcode unless its fetch failed, is the spec's own choice (D6, log entry 19). -/
def Obligations.FaultingStepIsAtomic : Prop :=
  ∀ s t : State, s.fsm = .running → step s = .next t → t.fsm = .faulted →
    ∃ r, t = { s with fsm := .faulted, fault := some r } ∧ r.pc = s.pc ∧
      (r.ir = none ↔ Config.params.memSize ≤ s.pc)

/-- R114, R243: with at least N - pc + 1 steps to go every run is over, at every parameter value and from every
state; from pc = 0 that is N + 1. Steps counted after the end leave the state as it is (the model's own choice,
log entry 8), and one end is Faulted (D2, log entry 6). -/
def Obligations.EveryRunEndsWithinBound : Prop :=
  ∀ (P : Params) (k : Nat) (s : State), P.memSize - s.pc + 1 ≤ k →
    ∃ t, runWith P k s = .next t ∧ (t.NormalEnd ∨ t.AbnormalEnd)

/-- The core is the parametric machine at the defaults, over every run. -/
def Obligations.CoreRunsAreDefaultParametricRuns : Prop :=
  ∀ (k : Nat) (s : State), Host.Core.run core k s = runWith Config.params k s

/-! ## Registers and memory -/

/-- R52. The canonical form is the model's own invariant of its list. -/
def Obligations.MemoryPrimitivesCheckBoundsAndStore : Prop :=
  ∀ (P : Params) (s : State) (a : Int) (v : Byte), s.mem.wf = true →
    (0 ≤ a → a < P.memSize →
      (∃ b, s.memRead P a = .ok b) ∧
      ∃ t, s.memWrite P a v = .ok t ∧ t.memRead P a = .ok v ∧
        (∀ c : Int, c ≠ a → t.memRead P c = s.memRead P c) ∧ t = { s with mem := t.mem }) ∧
    ((a < 0 ∨ P.memSize ≤ a) →
      s.memRead P a = .error (.outOfBounds a) ∧ s.memWrite P a v = .error (.outOfBounds a))

/-- R21, R11: eight registers, no aliases; any other index raises InvalidRegister. -/
def Obligations.RegisterFileHasEightSeparateRegisters : Prop :=
  ∀ (s : State) (i v : Byte),
    (i.toNat < 8 → (∃ b, s.readReg i = .ok b) ∧
      ∃ t, s.writeReg i v = .ok t ∧ t.readReg i = .ok v ∧
        (∀ j, j ≠ i → t.readReg j = s.readReg j) ∧ t = { s with x := t.x }) ∧
    (8 ≤ i.toNat → s.readReg i = .error (.invalidRegister i) ∧ s.writeReg i v = .error (.invalidRegister i))

/-! ## Results -/

/-- R121, with R120's advance. -/
def Obligations.LdiLoadsImmediate : Prop :=
  ∀ (r v : Byte) (s : State), r.toNat < 8 → s.fsm = .running →
    ∃ t, exec (.ldi r v) s = .next t ∧ t.readReg r = .ok v ∧
      (∀ q, q ≠ r → t.readReg q = s.readReg q) ∧ t.mem = s.mem ∧ t.sp = s.sp ∧ t.out = s.out ∧
      t.pc = s.pc + 3 ∧ t.ir = 0b10000010#8 ∧ t.fsm = .running ∧ t.fault = s.fault

/-- R123, R124: the register's byte is the output's new last byte, and nothing else changes but ir and pc. That
out gains the byte itself (D12) and that the port never blocks or fails, so PRN completes (D24), are the spec's
own choices (log entry 16, unsafe). -/
def Obligations.PrnAppendsRegisterToOutput : Prop :=
  ∀ (r v : Byte) (s : State), s.readReg r = .ok v → s.fsm = .running →
    exec (.prn r) s =
      .next { s with out := s.out ++ [v], pc := s.pc + 2, ir := Config.params.opcode .prn }

/-- R135, R138: both ALU instructions, also with one register named twice. -/
def Obligations.AluResultsAreModulo256 : Prop :=
  ∀ (a b va vb : Byte) (s : State), s.readReg a = .ok va → s.readReg b = .ok vb → s.fsm = .running →
    (∃ t v, exec (.add a b) s = .next t ∧ t.readReg a = .ok v ∧ v.toNat = (va.toNat + vb.toNat) % 256 ∧
      (∀ q, q ≠ a → t.readReg q = s.readReg q) ∧ t.mem = s.mem ∧ t.sp = s.sp ∧ t.out = s.out ∧
      t.pc = s.pc + 3 ∧ t.ir = Config.params.opcode .add ∧ t.fsm = .running ∧ t.fault = s.fault) ∧
    (∃ t v, exec (.mul a b) s = .next t ∧ t.readReg a = .ok v ∧ v.toNat = (va.toNat * vb.toNat) % 256 ∧
      (∀ q, q ≠ a → t.readReg q = s.readReg q) ∧ t.mem = s.mem ∧ t.sp = s.sp ∧ t.out = s.out ∧
      t.pc = s.pc + 3 ∧ t.ir = Config.params.opcode .mul ∧ t.fsm = .running ∧ t.fault = s.fault)

/-- R150: the byte lands at sp - 1, every other byte stays, sp moves there. -/
def Obligations.PushStoresBelowTop : Prop :=
  ∀ (r v : Byte) (s : State), s.mem.wf = true → s.readReg r = .ok v → s.fsm = .running →
    0 < s.sp → s.sp ≤ Config.params.memSize →
    ∃ t, exec (.push r) s = .next t ∧ t.sp + 1 = s.sp ∧ t.memRead Config.params t.sp = .ok v ∧
      (∀ c : Int, c ≠ (s.sp : Int) - 1 → t.memRead Config.params c = s.memRead Config.params c) ∧
      t.x = s.x ∧ t.pc = s.pc + 2 ∧ t.ir = Config.params.opcode .push ∧ t.out = s.out ∧ t.fsm = .running ∧
      t.fault = s.fault

/-- R153: the register gets the byte at sp, which stays in memory, and sp moves up. -/
def Obligations.PopLoadsTop : Prop :=
  ∀ (r v : Byte) (s : State), r.toNat < 8 → s.memRead Config.params s.sp = .ok v → s.fsm = .running →
    ∃ t, exec (.pop r) s = .next t ∧ t.readReg r = .ok v ∧ (∀ q, q ≠ r → t.readReg q = s.readReg q) ∧
      t.sp = s.sp + 1 ∧ t.mem = s.mem ∧ t.pc = s.pc + 2 ∧ t.ir = Config.params.opcode .pop ∧ t.out = s.out ∧
      t.fsm = .running ∧ t.fault = s.fault

/-- R160: from every state; pc stays at the HLT byte (R161). -/
def Obligations.HltHaltsInPlace : Prop :=
  ∀ s : State, exec .hlt s = .next { s with fsm := .halted, ir := 0b00000001#8 }

/-- R155. -/
def Obligations.PushThenPopRoundTrips : Prop :=
  ∀ (r q v : Byte) (s : State), s.mem.wf = true → s.readReg r = .ok v → q.toNat < 8 → s.fsm = .running →
    0 < s.sp → s.sp ≤ Config.params.memSize →
    ∃ t u, exec (.push r) s = .next t ∧ exec (.pop q) t = .next u ∧ u.readReg q = .ok v ∧
      (∀ p, p ≠ q → u.readReg p = s.readReg p) ∧ u.sp = s.sp ∧
      u.memRead Config.params ((s.sp : Int) - 1) = .ok v ∧ u.fsm = .running

/-- R61: a byte that PUSH stores at the next instruction's address is the opcode byte that instruction's fetch
reads. -/
def Obligations.NextFetchSeesPushedByte : Prop :=
  ∀ (r v : Byte) (s : State), s.mem.wf = true → s.readReg r = .ok v → s.fsm = .running →
    s.sp = s.pc + 3 → s.sp ≤ Config.params.memSize →
    ∃ t, exec (.push r) s = .next t ∧ t.pc = s.pc + 2 ∧ (t.codeAt Config.params t.pc).head? = some v

/-! ## Where an execute rule raises -/

/-- R203, R205: the first register operand of 8 or more is reported and nothing else changes, whatever else
the instruction would do (D3, D4, D6, log entries 6, 7 and 19). -/
def Obligations.InvalidRegisterFaults : Prop :=
  ∀ (i : Instr) (s : State) (r : Byte), i.regOperands.find? (fun q => decide (8 ≤ q.toNat)) = some r →
    exec i s = .next { s with
      fsm := .faulted
      fault := some { cause := .invalidRegister, pc := s.pc, ir := some (Config.params.opcode i.mnemonic),
                      info := r.toNat } }

/-- R151, R154, R202: the stack's own faults; a PUSH at sp = 0 reports -1 and leaves sp (D3, D8, log entries 6
and 9). The record's cause, pc, ir and info are the spec's own choice (D6, log entry 19). -/
def Obligations.StackOutOfBoundsFaults : Prop :=
  ∀ (r : Byte) (s : State), r.toNat < 8 →
    ((s.sp = 0 ∨ Config.params.memSize < s.sp) →
      exec (.push r) s = .next { s with
        fsm := .faulted
        fault := some { cause := .outOfBounds, pc := s.pc, ir := some (Config.params.opcode .push),
                        info := (s.sp : Int) - 1 } }) ∧
    (Config.params.memSize ≤ s.sp →
      exec (.pop r) s = .next { s with
        fsm := .faulted
        fault := some { cause := .outOfBounds, pc := s.pc, ir := some (Config.params.opcode .pop),
                        info := s.sp } })

/-- R156, R203: an instruction whose register operands all exist faults in its execute half only at the
stack's memory bounds (D6, log entry 19). -/
def Obligations.OnlyStackBoundsFaultWithValidRegisters : Prop :=
  ∀ (i : Instr) (s t : State), i.regsInRange = true → s.fsm = .running → exec i s = .next t →
    t.fsm = .faulted →
    (i.mnemonic = .push ∨ i.mnemonic = .pop) ∧ ∃ r, t.fault = some r ∧ r.cause = .outOfBounds

/-! ## Frames

Each frame covers the faulting case too, where that nothing but the FSM and the record changes is the spec's
own choice (D3, log entries 5 and 6). -/

/-- LDI, MUL and ADD, completing or faulting: beside the destination register only pc, ir and, on a fault, the
FSM and its record may change. -/
def Obligations.RegisterWritersFrame : Prop :=
  ∀ (i : Instr) (dst b : Byte) (s t : State), i = .ldi dst b ∨ i = .mul dst b ∨ i = .add dst b →
    exec i s = .next t →
    (∀ q, q ≠ dst → t.readReg q = s.readReg q) ∧
    (∀ a : Int, t.memRead Config.params a = s.memRead Config.params a) ∧
    t.sp = s.sp ∧ t.out = s.out ∧ (t.ir = s.ir ∨ t.ir = Config.params.opcode i.mnemonic) ∧
    (t.fsm = s.fsm ∧ t.fault = s.fault ∨ t.fsm = .faulted)

/-- POP: beside its register also sp, one up. -/
def Obligations.PopFrame : Prop :=
  ∀ (dst : Byte) (s t : State), exec (.pop dst) s = .next t →
    (∀ q, q ≠ dst → t.readReg q = s.readReg q) ∧
    (∀ a : Int, t.memRead Config.params a = s.memRead Config.params a) ∧
    (t.sp = s.sp ∨ t.sp = s.sp + 1) ∧ t.out = s.out ∧
    (t.ir = s.ir ∨ t.ir = Config.params.opcode .pop) ∧
    (t.fsm = s.fsm ∧ t.fault = s.fault ∨ t.fsm = .faulted)

/-- PUSH: no register, and no byte but the one at `pushAddress`, the meaning's own address. -/
def Obligations.PushFrame : Prop :=
  ∀ (reg : Byte) (s t : State), exec (.push reg) s = .next t →
    (∀ q, t.readReg q = s.readReg q) ∧
    (∀ a : Int, a ≠ s.pushAddress → t.memRead Config.params a = s.memRead Config.params a) ∧
    (t.sp = s.sp ∨ (t.sp : Int) = s.pushAddress) ∧ t.out = s.out ∧
    (t.ir = s.ir ∨ t.ir = Config.params.opcode .push) ∧
    (t.fsm = s.fsm ∧ t.fault = s.fault ∨ t.fsm = .faulted)

/-- PRN and HLT: no register, no byte of memory, not sp; PRN may append (D12, log entry 16), HLT does not. -/
def Obligations.PrnAndHltFrame : Prop :=
  ∀ (i : Instr) (reg : Byte) (s t : State), i = .prn reg ∨ i = .hlt → exec i s = .next t →
    (∀ q, t.readReg q = s.readReg q) ∧
    (∀ a : Int, t.memRead Config.params a = s.memRead Config.params a) ∧
    t.sp = s.sp ∧ (∃ e, t.out = s.out ++ e ∧ (i = .hlt → e = [])) ∧
    (t.ir = s.ir ∨ t.ir = Config.params.opcode i.mnemonic) ∧
    (t.fault = s.fault ∨ t.fsm = .faulted) ∧ (t.fsm = s.fsm ∨ t.fsm = .faulted ∨ i = .hlt)

/-! ## Rules over all instructions -/

/-- R22, R77 "writes a register": a register changes only under an instruction the decoder says writes one, and
then it is op1's. -/
def Obligations.RegistersChangeOnlyUnderWriters : Prop :=
  ∀ (i : Instr) (s t : State) (q : Byte), exec i s = .next t → t.readReg q ≠ s.readReg q →
    i.mnemonic.writesReg = true ∧ i.regOperands.head? = some q

/-- R50, R51: the only memory writer is PUSH, and it writes the byte at sp - 1. -/
def Obligations.MemoryChangesOnlyUnderPush : Prop :=
  ∀ (s t : State) (a : Int), step s = .next t →
    t.memRead Config.params a ≠ s.memRead Config.params a →
    s.fsm = .running ∧ s.memRead Config.params s.pc = .ok (Config.params.opcode .push) ∧ a = (s.sp : Int) - 1

/-- R27: sp changes only by PUSH's decrement and POP's increment. -/
def Obligations.SpChangesOnlyUnderPushAndPop : Prop :=
  ∀ s t : State, step s = .next t → t.sp ≠ s.sp →
    (s.memRead Config.params s.pc = .ok (Config.params.opcode .push) ∧ t.sp + 1 = s.sp) ∨
    (s.memRead Config.params s.pc = .ok (Config.params.opcode .pop) ∧ t.sp = s.sp + 1)

/-- R32, R125: output already emitted stays, and only PRN adds to it. That it adds exactly one byte to a
sequence is the spec's own choice (D12, log entry 16). -/
def Obligations.OutputOnlyGrowsUnderPrn : Prop :=
  ∀ s t : State, step s = .next t →
    t.out = s.out ∨
    (∃ v, t.out = s.out ++ [v]) ∧ s.memRead Config.params s.pc = .ok (Config.params.opcode .prn)

/-- R222: the trace gives pc, the three bytes at pc, absent where memory has none, and the register file (D14,
log entry 15). -/
def Obligations.TraceReportsAbsentBytes : Prop :=
  ∀ (P : Params) (s : State),
    (s.trace P).pc = s.pc ∧ (s.trace P).x = s.x ∧
    ∀ (k : Nat) (h : k < 3), (s.trace P).bytes[k] = (s.memRead P ((s.pc + k : Nat) : Int)).toOption
end

