-- ==== Sys2Proof/Laws/Decode.lean ====
section
/-! SUPPORT. The laws of the opcode assignment and of the decoder's parts. -/

namespace Sys2Proof

theorem Mnemonic.mem_all (m : Mnemonic) : m ∈ Mnemonic.all := by cases m <;> decide

/-- `opcode >> 6` as a number. -/
theorem operandCountOf_eq (b : Byte) : operandCountOf b = b.toNat / 64 := by
  simp [operandCountOf, BitVec.toNat_ushiftRight, Nat.shiftRight_eq_div_pow]

theorem Params.wf_iff (P : Params) :
    P.wf = true ↔ P.countsAgree = true ∧ P.opcodesDistinct = true := by
  simp [Params.wf]

/-- R79, first condition, at one mnemonic. -/
theorem operandCountOf_opcode {P : Params} (h : P.wf = true) (m : Mnemonic) :
    operandCountOf (P.opcode m) = m.operandCount := by
  have := List.all_eq_true.1 ((P.wf_iff.1 h).1) m m.mem_all
  rw [operandCountOf_eq]
  simpa using this

/-- R79, second condition: equal opcodes belong to equal mnemonics. -/
theorem opcode_injective {P : Params} (h : P.wf = true) {m n : Mnemonic}
    (e : P.opcode m = P.opcode n) : m = n :=
  List.inj_on_of_nodup_map (of_decide_eq_true ((P.wf_iff.1 h).2)) m.mem_all n.mem_all e

/-- A byte that the decoder knows is the opcode of the mnemonic it gives. -/
theorem opcode_of_mnemonicOf {P : Params} {b : Byte} {m : Mnemonic} (h : mnemonicOf P b = some m) :
    P.opcode m = b := by
  simpa using List.find?_some h

/-- Each opcode decodes to its own mnemonic. -/
theorem mnemonicOf_opcode {P : Params} (h : P.wf = true) (m : Mnemonic) :
    mnemonicOf P (P.opcode m) = some m := by
  cases hm : mnemonicOf P (P.opcode m) with
  | some n => rw [opcode_injective h (opcode_of_mnemonicOf hm)]
  | none => simpa using List.find?_eq_none.1 hm m m.mem_all

/-- UnknownOpcode is a byte outside the assignment (R78). -/
theorem mnemonicOf_eq_none {P : Params} {b : Byte} :
    mnemonicOf P b = none ↔ ∀ m, P.opcode m ≠ b := by
  simp [mnemonicOf, List.find?_eq_none, Mnemonic.mem_all]

theorem decodeOpcode_eq_none {P : Params} {b : Byte} :
    decodeOpcode P b = none ↔ ∀ m, P.opcode m ≠ b := by
  simp [decodeOpcode, mnemonicOf_eq_none]

/-- What a class says of the byte it came from. -/
theorem decodeOpcode_some {P : Params} {b : Byte} {c : OpClass} (h : decodeOpcode P b = some c) :
    P.opcode c.mnemonic = b ∧ c.operandCount = operandCountOf b ∧
      c.writesReg = c.mnemonic.writesReg ∧ c.alu = c.mnemonic.alu := by
  obtain ⟨m, hm, rfl⟩ := Option.map_eq_some_iff.1 h
  exact ⟨opcode_of_mnemonicOf hm, rfl, rfl, rfl⟩

/-- The class of each opcode. -/
theorem decodeOpcode_opcode {P : Params} (h : P.wf = true) (m : Mnemonic) :
    decodeOpcode P (P.opcode m) =
      some { mnemonic := m, operandCount := m.operandCount, writesReg := m.writesReg, alu := m.alu } := by
  simp [decodeOpcode, mnemonicOf_opcode h, operandCountOf_opcode h]

@[simp] theorem assemble_mnemonic (m : Mnemonic) (op1 op2 : Byte) : (assemble m op1 op2).mnemonic = m := by
  cases m <;> rfl

/-- The default assignment is accepted. -/
theorem params_wf : Config.params.wf = true := by decide

end Sys2Proof
end

