-- ==== Sys2Proof/Laws/Memory.lean ====
section
/-! SUPPORT. The laws of the memory list: what a read gives after a write, that every operation keeps the
canonical form, and that canonical memories which read alike are equal. -/

namespace Sys2Proof.Machine.Memory

@[simp] theorem read_nil (a : Nat) : Memory.read a [] = 0 := rfl

theorem read_cons (a b : Nat) (v : Byte) (m : Memory) :
    Memory.read a ((b, v) :: m) = if b = a then v else Memory.read a m := rfl

theorem wfFrom_cons (lo a : Nat) (v : Byte) (m : Memory) :
    Memory.wfFrom lo ((a, v) :: m) = true ↔ lo ≤ a ∧ v ≠ 0 ∧ Memory.wfFrom (a + 1) m = true := by
  simp [Memory.wfFrom, and_assoc]

/-- A lower bound on the addresses may be lowered. -/
theorem wfFrom_mono {lo hi : Nat} (h : lo ≤ hi) : ∀ {m : Memory}, m.wfFrom hi = true → m.wfFrom lo = true
  | [], _ => rfl
  | (a, v) :: m, hm => by
    obtain ⟨ha, hv, hm⟩ := (wfFrom_cons ..).1 hm
    exact (wfFrom_cons ..).2 ⟨h.trans ha, hv, hm⟩

/-- Below the lowest address every read gives 0. -/
theorem read_below {a : Nat} : ∀ {lo : Nat} {m : Memory}, m.wfFrom lo = true → a < lo → m.read a = 0
  | _, [], _, _ => rfl
  | lo, (b, v) :: m, hm, ha => by
    obtain ⟨hb, -, hm⟩ := (wfFrom_cons ..).1 hm
    rw [read_cons, if_neg (by omega), read_below hm (by omega)]

/-- A read after a write to the same address, in canonical form. -/
theorem read_write_same (a : Nat) (v : Byte) :
    ∀ {lo : Nat} {m : Memory}, m.wfFrom lo = true → (m.write a v).read a = v
  | _, [], _ => by
    unfold Memory.write
    split <;> simp_all [Memory.read]
  | lo, (b, w) :: m, hm => by
    obtain ⟨-, -, hm'⟩ := (wfFrom_cons ..).1 hm
    unfold Memory.write
    split
    · split
      · subst v; rw [read_cons, if_neg (by omega)]; exact read_below hm' (by omega)
      · simp [read_cons]
    · split
      · split
        · subst v; exact read_below hm' (by omega)
        · simp [read_cons]
      · rw [read_cons, if_neg (by omega)]; exact read_write_same a v hm'

/-- A write leaves every other address alone; this needs no canonical form. -/
theorem read_write_other {a b : Nat} (v : Byte) (h : b ≠ a) :
    ∀ m : Memory, (m.write a v).read b = m.read b
  | [] => by
    unfold Memory.write
    split <;> simp [Memory.read, h.symm]
  | (c, w) :: m => by
    unfold Memory.write
    split
    · split
      · rfl
      · rw [read_cons, if_neg h.symm]
    · split
      · subst c
        split <;> simp [read_cons, h.symm]
      · simp only [read_cons, read_write_other v h m]

theorem write_wfFrom (a : Nat) (v : Byte) :
    ∀ {lo : Nat} {m : Memory}, lo ≤ a → m.wfFrom lo = true → (m.write a v).wfFrom lo = true
  | lo, [], h, _ => by
    unfold Memory.write
    split
    · rfl
    · exact (wfFrom_cons ..).2 ⟨h, ‹_›, rfl⟩
  | lo, (b, w) :: m, h, hm => by
    obtain ⟨hb, hw, hm'⟩ := (wfFrom_cons ..).1 hm
    unfold Memory.write
    split
    · split
      · exact hm
      · exact (wfFrom_cons ..).2 ⟨h, ‹_›, (wfFrom_cons ..).2 ⟨by omega, hw, hm'⟩⟩
    · split
      · split
        · exact wfFrom_mono (by omega) hm'
        · exact (wfFrom_cons ..).2 ⟨h, ‹_›, by subst a; exact hm'⟩
      · exact (wfFrom_cons ..).2 ⟨hb, hw, write_wfFrom a v (by omega) hm'⟩

/-- A write keeps the canonical form. -/
theorem write_wf (a : Nat) (v : Byte) {m : Memory} (hm : m.wf = true) : (m.write a v).wf = true :=
  write_wfFrom a v (Nat.zero_le a) hm

/-- A write lists no address but its own beside those listed. -/
theorem mem_write {a : Nat} {v : Byte} {c : Host.Cell} :
    ∀ {m : Memory}, c ∈ m.write a v → c = (a, v) ∨ c ∈ m
  | [] => by
    unfold Memory.write
    split <;> simp
  | (b, w) :: m => by
    have ih := @mem_write a v c m
    unfold Memory.write
    split
    · split <;> simp +contextual
    · split
      · split <;> simp +contextual
        exact fun h => by cases h <;> simp_all
      · simp only [List.mem_cons]
        rintro (h | h)
        · exact .inr (.inl h)
        · exact (ih h).imp_right .inr

/-- Every listed address stays below a bound that the written one meets. -/
theorem write_inside {a n : Nat} {v : Byte} {m : Memory} (ha : a < n) (hm : ∀ c ∈ m, c.1 < n) :
    ∀ c ∈ m.write a v, c.1 < n := by
  intro c hc
  obtain rfl | hc := mem_write hc
  · exact ha
  · exact hm c hc

/-- Loading bytes keeps the canonical form. -/
theorem load_wf : ∀ (bs : List Byte) (a : Nat) {m : Memory}, m.wf = true → (m.load a bs).wf = true
  | [], _, _, hm => hm
  | b :: bs, a, _, hm => load_wf bs (a + 1) (write_wf a b hm)

/-- Loading bytes below a bound keeps every listed address below it. -/
theorem load_inside {n : Nat} : ∀ (bs : List Byte) (a : Nat) {m : Memory}, a + bs.length ≤ n →
    (∀ c ∈ m, c.1 < n) → ∀ c ∈ m.load a bs, c.1 < n
  | [], _, _, _, hm => hm
  | b :: bs, a, m, h, hm => by
    simp only [List.length_cons] at h
    exact load_inside bs (a + 1) (by omega) (write_inside (by omega) hm)

/-- Loading leaves every address outside the loaded range alone. -/
theorem read_load_other {b : Nat} : ∀ (bs : List Byte) (a : Nat) (m : Memory),
    b < a ∨ a + bs.length ≤ b → (m.load a bs).read b = m.read b
  | [], _, _, _ => rfl
  | v :: bs, a, m, h => by
    simp only [List.length_cons] at h
    exact (read_load_other bs (a + 1) (m.write a v) (by omega)).trans (read_write_other v (by omega) m)

/-- The loaded bytes read back. -/
theorem read_load {k : Nat} : ∀ (bs : List Byte) (a : Nat) {m : Memory}, m.wf = true →
    (h : k < bs.length) → (m.load a bs).read (a + k) = bs[k]
  | [], _, _, _, h => by simp at h
  | v :: bs, a, m, hm, h => by
    cases k with
    | zero =>
      exact (read_load_other bs (a + 1) (m.write a v) (by omega)).trans (read_write_same a v hm)
    | succ k =>
      have := read_load (k := k) bs (a + 1) (write_wf a v hm) (by simpa using h)
      simpa [Nat.add_assoc, Nat.add_comm 1 k, Memory.load] using this

theorem ext_from : ∀ {lo : Nat} {m n : Memory}, m.wfFrom lo = true → n.wfFrom lo = true →
    (∀ a, m.read a = n.read a) → m = n
  | _, [], [], _, _, _ => rfl
  | _, [], (b, w) :: n, _, hn, h => by
    obtain ⟨-, hw, -⟩ := (wfFrom_cons ..).1 hn
    exact absurd (by simpa [Memory.read] using (h b).symm) hw
  | _, (a, v) :: m, [], hm, _, h => by
    obtain ⟨-, hv, -⟩ := (wfFrom_cons ..).1 hm
    exact absurd (by simpa [Memory.read] using h a) hv
  | lo, (a, v) :: m, (b, w) :: n, hm, hn, h => by
    obtain ⟨-, hv, hm⟩ := (wfFrom_cons ..).1 hm
    obtain ⟨-, hw, hn'⟩ := (wfFrom_cons ..).1 hn
    have ha := h a
    have hb := h b
    simp only [read_cons, if_true] at ha hb
    obtain hab | rfl | hab := Nat.lt_trichotomy a b
    · rw [if_neg (by omega), read_below hn' (by omega)] at ha
      exact absurd ha hv
    · obtain rfl : v = w := by simpa using ha
      refine congrArg _ (ext_from hm hn' fun c => ?_)
      have hc := h c
      simp only [read_cons] at hc
      by_cases hac : a = c
      · subst c; rw [read_below hm (by omega), read_below hn' (by omega)]
      · simpa [hac] using hc
    · rw [if_neg (by omega), read_below hm (by omega)] at hb
      exact absurd hb.symm hw

/-- Canonical memories with the same contents are the same list. -/
theorem ext {m n : Memory} (hm : m.wf = true) (hn : n.wf = true) (h : ∀ a, m.read a = n.read a) : m = n :=
  ext_from hm hn h

end Sys2Proof.Machine.Memory
end

