-- ==== Sys2Proof/Laws/State.lean ====
section
/-! SUPPORT. What each named update of the state leaves in each field, by unfolding the update once. -/

namespace Sys2Proof.Machine.State

variable (s : State)

/-! `latchIr` -/

@[simp] theorem latchIr_mem (b : Byte) : (s.latchIr b).mem = s.mem := rfl
@[simp] theorem latchIr_x (b : Byte) : (s.latchIr b).x = s.x := rfl
@[simp] theorem latchIr_pc (b : Byte) : (s.latchIr b).pc = s.pc := rfl
@[simp] theorem latchIr_sp (b : Byte) : (s.latchIr b).sp = s.sp := rfl
@[simp] theorem latchIr_ir (b : Byte) : (s.latchIr b).ir = b := rfl
@[simp] theorem latchIr_fsm (b : Byte) : (s.latchIr b).fsm = s.fsm := rfl
@[simp] theorem latchIr_fault (b : Byte) : (s.latchIr b).fault = s.fault := rfl
@[simp] theorem latchIr_out (b : Byte) : (s.latchIr b).out = s.out := rfl

/-! `setSp` -/

@[simp] theorem setSp_mem (v : Nat) : (s.setSp v).mem = s.mem := rfl
@[simp] theorem setSp_x (v : Nat) : (s.setSp v).x = s.x := rfl
@[simp] theorem setSp_pc (v : Nat) : (s.setSp v).pc = s.pc := rfl
@[simp] theorem setSp_sp (v : Nat) : (s.setSp v).sp = v := rfl
@[simp] theorem setSp_ir (v : Nat) : (s.setSp v).ir = s.ir := rfl
@[simp] theorem setSp_fsm (v : Nat) : (s.setSp v).fsm = s.fsm := rfl
@[simp] theorem setSp_fault (v : Nat) : (s.setSp v).fault = s.fault := rfl
@[simp] theorem setSp_out (v : Nat) : (s.setSp v).out = s.out := rfl

/-! `emit` -/

@[simp] theorem emit_mem (v : Byte) : (s.emit v).mem = s.mem := rfl
@[simp] theorem emit_x (v : Byte) : (s.emit v).x = s.x := rfl
@[simp] theorem emit_pc (v : Byte) : (s.emit v).pc = s.pc := rfl
@[simp] theorem emit_sp (v : Byte) : (s.emit v).sp = s.sp := rfl
@[simp] theorem emit_ir (v : Byte) : (s.emit v).ir = s.ir := rfl
@[simp] theorem emit_fsm (v : Byte) : (s.emit v).fsm = s.fsm := rfl
@[simp] theorem emit_fault (v : Byte) : (s.emit v).fault = s.fault := rfl
@[simp] theorem emit_out (v : Byte) : (s.emit v).out = s.out ++ [v] := rfl

/-! `halt` -/

@[simp] theorem halt_mem : (s.halt).mem = s.mem := rfl
@[simp] theorem halt_x : (s.halt).x = s.x := rfl
@[simp] theorem halt_pc : (s.halt).pc = s.pc := rfl
@[simp] theorem halt_sp : (s.halt).sp = s.sp := rfl
@[simp] theorem halt_ir : (s.halt).ir = s.ir := rfl
@[simp] theorem halt_fsm : (s.halt).fsm = .halted := rfl
@[simp] theorem halt_fault : (s.halt).fault = s.fault := rfl
@[simp] theorem halt_out : (s.halt).out = s.out := rfl

/-! `enterFault` -/

@[simp] theorem enterFault_mem (r : Raise) (ir : Option Byte) : (s.enterFault r ir).mem = s.mem := rfl
@[simp] theorem enterFault_x (r : Raise) (ir : Option Byte) : (s.enterFault r ir).x = s.x := rfl
@[simp] theorem enterFault_pc (r : Raise) (ir : Option Byte) : (s.enterFault r ir).pc = s.pc := rfl
@[simp] theorem enterFault_sp (r : Raise) (ir : Option Byte) : (s.enterFault r ir).sp = s.sp := rfl
@[simp] theorem enterFault_ir (r : Raise) (ir : Option Byte) : (s.enterFault r ir).ir = s.ir := rfl
@[simp] theorem enterFault_fsm (r : Raise) (ir : Option Byte) : (s.enterFault r ir).fsm = .faulted := rfl
@[simp] theorem enterFault_fault (r : Raise) (ir : Option Byte) :
    (s.enterFault r ir).fault = some { cause := r.cause, pc := s.pc, ir := ir, info := r.info } := rfl
@[simp] theorem enterFault_out (r : Raise) (ir : Option Byte) : (s.enterFault r ir).out = s.out := rfl

/-! `advance` -/

@[simp] theorem advance_mem : s.advance.mem = s.mem := by
  unfold advance; split <;> rfl
@[simp] theorem advance_x : s.advance.x = s.x := by
  unfold advance; split <;> rfl
@[simp] theorem advance_sp : s.advance.sp = s.sp := by
  unfold advance; split <;> rfl
@[simp] theorem advance_ir : s.advance.ir = s.ir := by
  unfold advance; split <;> rfl
@[simp] theorem advance_fsm : s.advance.fsm = s.fsm := by
  unfold advance; split <;> rfl
@[simp] theorem advance_fault : s.advance.fault = s.fault := by
  unfold advance; split <;> rfl
@[simp] theorem advance_out : s.advance.out = s.out := by
  unfold advance; split <;> rfl

/-- R106 in Running. -/
theorem advance_pc_running (h : s.fsm = .running) :
    s.advance.pc = s.pc + 1 + operandCountOf s.ir := by
  simp [advance, h]

/-- R106, R161: outside Running pc stays. -/
theorem advance_pc_stopped (h : s.fsm ≠ .running) : s.advance.pc = s.pc := by
  unfold advance
  split
  · contradiction
  all_goals rfl

/-! `placeBytes` -/

@[simp] theorem placeBytes_mem (P : Params) (a : Nat) (bs : List Byte) :
    (s.placeBytes P a bs).mem = Memory.load a (bs.take (P.memSize - a)) s.mem := rfl
@[simp] theorem placeBytes_x (P : Params) (a : Nat) (bs : List Byte) : (s.placeBytes P a bs).x = s.x := rfl
@[simp] theorem placeBytes_pc (P : Params) (a : Nat) (bs : List Byte) : (s.placeBytes P a bs).pc = s.pc := rfl
@[simp] theorem placeBytes_sp (P : Params) (a : Nat) (bs : List Byte) : (s.placeBytes P a bs).sp = s.sp := rfl
@[simp] theorem placeBytes_ir (P : Params) (a : Nat) (bs : List Byte) : (s.placeBytes P a bs).ir = s.ir := rfl
@[simp] theorem placeBytes_fsm (P : Params) (a : Nat) (bs : List Byte) :
    (s.placeBytes P a bs).fsm = s.fsm := rfl
@[simp] theorem placeBytes_fault (P : Params) (a : Nat) (bs : List Byte) :
    (s.placeBytes P a bs).fault = s.fault := rfl
@[simp] theorem placeBytes_out (P : Params) (a : Nat) (bs : List Byte) :
    (s.placeBytes P a bs).out = s.out := rfl

/-! `withFetchWord` -/

@[simp] theorem withFetchWord_mem (nbits w : Nat) :
    (s.withFetchWord nbits w).mem = Memory.load s.pc ((tableBytes nbits w).take (Config.params.memSize - s.pc)) s.mem := rfl
@[simp] theorem withFetchWord_x (nbits w : Nat) : (s.withFetchWord nbits w).x = s.x := rfl
@[simp] theorem withFetchWord_pc (nbits w : Nat) : (s.withFetchWord nbits w).pc = s.pc := rfl
@[simp] theorem withFetchWord_sp (nbits w : Nat) : (s.withFetchWord nbits w).sp = s.sp := rfl
@[simp] theorem withFetchWord_ir (nbits w : Nat) : (s.withFetchWord nbits w).ir = s.ir := rfl
@[simp] theorem withFetchWord_fsm (nbits w : Nat) : (s.withFetchWord nbits w).fsm = .running := rfl
@[simp] theorem withFetchWord_fault (nbits w : Nat) : (s.withFetchWord nbits w).fault = none := rfl
@[simp] theorem withFetchWord_out (nbits w : Nat) : (s.withFetchWord nbits w).out = s.out := rfl

/-! `resetWith` -/

@[simp] theorem resetWith_mem (P : Params) : (resetWith P).mem = [] := rfl
@[simp] theorem resetWith_x (P : Params) : (resetWith P).x = Vector.replicate 8 0 := rfl
@[simp] theorem resetWith_pc (P : Params) : (resetWith P).pc = 0 := rfl
@[simp] theorem resetWith_sp (P : Params) : (resetWith P).sp = P.stackBase := rfl
@[simp] theorem resetWith_fsm (P : Params) : (resetWith P).fsm = .running := rfl
@[simp] theorem resetWith_fault (P : Params) : (resetWith P).fault = none := rfl
@[simp] theorem resetWith_out (P : Params) : (resetWith P).out = [] := rfl

end Sys2Proof.Machine.State
end

