-- ==== Sys2Proof/Laws/Ops.lean ====
section
/-! SUPPORT. What each shared operation over registers and memory, and each execute rule, can do. -/

namespace Sys2Proof.Machine

variable {P : Params} {s t : State}

/-! Registers (R21) -/

theorem State.readReg_of_lt {i : Byte} (h : i.toNat < 8) : s.readReg i = .ok s.x[i.toNat] := dif_pos h

theorem State.readReg_of_ge {i : Byte} (h : 8 ≤ i.toNat) : s.readReg i = .error (.invalidRegister i) :=
  dif_neg (by omega)

theorem State.readReg_eq_ok {i v : Byte} :
    s.readReg i = .ok v ↔ ∃ h : i.toNat < 8, s.x[i.toNat] = v := by
  unfold State.readReg; split <;> simp_all

theorem State.readReg_eq_error {i : Byte} {r : Raise} :
    s.readReg i = .error r ↔ 8 ≤ i.toNat ∧ r = .invalidRegister i := by
  unfold State.readReg; split
  · simp; omega
  · simp [eq_comm]; omega

theorem State.writeReg_of_lt {i v : Byte} (h : i.toNat < 8) :
    s.writeReg i v = .ok { s with x := s.x.set i.toNat v } := dif_pos h

theorem State.writeReg_of_ge {i v : Byte} (h : 8 ≤ i.toNat) :
    s.writeReg i v = .error (.invalidRegister i) := dif_neg (by omega)

theorem State.writeReg_eq_ok {i v : Byte} :
    s.writeReg i v = .ok t ↔ ∃ h : i.toNat < 8, t = { s with x := s.x.set i.toNat v } := by
  unfold State.writeReg; split <;> simp_all [eq_comm]

/-- A register read depends on the register file alone. -/
theorem State.readReg_congr (h : t.x = s.x) (i : Byte) : t.readReg i = s.readReg i := by
  unfold State.readReg; rw [h]

theorem State.readReg_set_same {i v : Byte} (h : i.toNat < 8) (hx : t.x = s.x.set i.toNat v) :
    t.readReg i = .ok v := by
  simp [State.readReg, h, hx]

/-- Different index bytes are different registers: there are no aliases (R21). -/
theorem State.readReg_set_other {i j v : Byte} (h : i.toNat < 8) (hx : t.x = s.x.set i.toNat v)
    (hj : j ≠ i) : t.readReg j = s.readReg j := by
  have : i.toNat ≠ j.toNat := fun e => hj (BitVec.eq_of_toNat_eq e.symm)
  simp [State.readReg, hx, this]

/-! Memory (R52) -/

theorem State.memRead_of_in {a : Int} (h : InMemory P a) : s.memRead P a = .ok (s.mem.read a.toNat) :=
  if_pos h

theorem State.memRead_of_out {a : Int} (h : ¬ InMemory P a) : s.memRead P a = .error (.outOfBounds a) :=
  if_neg h

theorem State.memRead_eq_ok {a : Int} {v : Byte} :
    s.memRead P a = .ok v ↔ InMemory P a ∧ s.mem.read a.toNat = v := by
  by_cases h : InMemory P a
  · simpa [State.memRead_of_in h] using fun _ => h
  · simp only [State.memRead_of_out h, h, false_and, reduceCtorEq]

theorem State.memRead_eq_error {a : Int} {r : Raise} :
    s.memRead P a = .error r ↔ ¬ InMemory P a ∧ r = .outOfBounds a := by
  unfold State.memRead; split <;> simp_all [eq_comm]

theorem inMemory_nat {a : Nat} : InMemory P (a : Int) ↔ a < P.memSize := by
  simp only [InMemory]; omega

theorem State.memRead_nat_eq_ok {a : Nat} {v : Byte} :
    s.memRead P (a : Int) = .ok v ↔ a < P.memSize ∧ s.mem.read a = v := by
  rw [State.memRead_eq_ok, Int.toNat_natCast, inMemory_nat]

theorem State.memRead_nat_eq_error {a : Nat} {r : Raise} :
    s.memRead P (a : Int) = .error r ↔ P.memSize ≤ a ∧ r = .outOfBounds a := by
  rw [State.memRead_eq_error, inMemory_nat, not_lt]

theorem State.memWrite_of_in {a : Int} {v : Byte} (h : InMemory P a) :
    s.memWrite P a v = .ok { s with mem := s.mem.write a.toNat v } := if_pos h

theorem State.memWrite_of_out {a : Int} {v : Byte} (h : ¬ InMemory P a) :
    s.memWrite P a v = .error (.outOfBounds a) := if_neg h

theorem State.memWrite_eq_ok {a : Int} {v : Byte} :
    s.memWrite P a v = .ok t ↔ InMemory P a ∧ t = { s with mem := s.mem.write a.toNat v } := by
  by_cases h : InMemory P a
  · simpa [State.memWrite_of_in h, eq_comm] using fun _ => h
  · simp only [State.memWrite_of_out h, h, false_and, reduceCtorEq]

/-- A memory read depends on memory alone. -/
theorem State.memRead_congr (h : t.mem = s.mem) (a : Int) : t.memRead P a = s.memRead P a := by
  unfold State.memRead; rw [h]

theorem State.memRead_write_other {a b : Int} {v : Byte} (ha : InMemory P a)
    (hm : t.mem = s.mem.write a.toNat v) (hb : b ≠ a) : t.memRead P b = s.memRead P b := by
  unfold State.memRead
  split
  · rw [hm, Memory.read_write_other v (by simp only [InMemory] at *; omega)]
  · rfl

/-! The execute rules -/

theorem ldiRule_eq_ok {reg imm : Byte} :
    ldiRule reg imm s = .ok t ↔ ∃ h : reg.toNat < 8, t = { s with x := s.x.set reg.toNat imm } :=
  State.writeReg_eq_ok

theorem ldiRule_eq_error {reg imm : Byte} {r : Raise} :
    ldiRule reg imm s = .error r ↔ 8 ≤ reg.toNat ∧ r = .invalidRegister reg := by
  unfold ldiRule State.writeReg; split
  · simp; omega
  · simp [eq_comm]; omega

theorem prnRule_eq_ok {reg : Byte} :
    prnRule reg s = .ok t ↔ ∃ h : reg.toNat < 8, t = s.emit s.x[reg.toNat] := by
  by_cases h : reg.toNat < 8 <;> simp [prnRule, State.readReg, h, eq_comm]

theorem aluRule_eq_ok {op : AluOp} {a b : Byte} :
    aluRule op a b s = .ok t ↔ ∃ (ha : a.toNat < 8) (hb : b.toNat < 8),
      t = { s with x := s.x.set a.toNat (aluResult op s.x[a.toNat] s.x[b.toNat]) } := by
  by_cases ha : a.toNat < 8 <;> by_cases hb : b.toNat < 8 <;>
    simp [aluRule, State.readReg, State.writeReg, ha, hb, eq_comm]

theorem pushRule_eq_ok {reg : Byte} :
    pushRule P reg s = .ok t ↔ ∃ h : reg.toNat < 8, 0 < s.sp ∧ s.sp ≤ P.memSize ∧
      t = { s with mem := s.mem.write (s.sp - 1) s.x[reg.toNat], sp := s.sp - 1 } := by
  have e : s.pushAddress.toNat = s.sp - 1 := by simp only [State.pushAddress]; omega
  have hin : InMemory P s.pushAddress ↔ 0 < s.sp ∧ s.sp ≤ P.memSize := by
    simp only [InMemory, State.pushAddress]; omega
  by_cases h : reg.toNat < 8 <;> by_cases hb : 0 < s.sp ∧ s.sp ≤ P.memSize <;>
    simp only [pushRule, State.readReg, State.memWrite, hin, e, h, hb, State.setSp, dite_true, dite_false, if_false] <;> simp_all [eq_comm]

theorem popRule_eq_ok {reg : Byte} :
    popRule P reg s = .ok t ↔ ∃ h : reg.toNat < 8, s.sp < P.memSize ∧
      t = { s with x := s.x.set reg.toNat (s.mem.read s.sp), sp := s.sp + 1 } := by
  by_cases h : reg.toNat < 8 <;> by_cases hb : s.sp < P.memSize <;>
    simp [popRule, State.readReg, State.memRead, State.writeReg, State.setSp, State.popAddress, InMemory, h, hb,
      eq_comm]

/-! Where the execute rules raise, in the order of R205 items 5 to 7 -/

theorem prnRule_of_badReg {reg : Byte} (h : 8 ≤ reg.toNat) :
    prnRule reg s = .error (.invalidRegister reg) := by
  simp [prnRule, State.readReg_of_ge h]

theorem aluRule_of_badReg1 {op : AluOp} {a b : Byte} (h : 8 ≤ a.toNat) :
    aluRule op a b s = .error (.invalidRegister a) := by
  simp [aluRule, State.readReg_of_ge h]

theorem aluRule_of_badReg2 {op : AluOp} {a b : Byte} (ha : a.toNat < 8) (h : 8 ≤ b.toNat) :
    aluRule op a b s = .error (.invalidRegister b) := by
  simp [aluRule, State.readReg_of_lt ha, State.readReg_of_ge h]

theorem pushRule_of_badReg {reg : Byte} (h : 8 ≤ reg.toNat) :
    pushRule P reg s = .error (.invalidRegister reg) := by
  simp [pushRule, State.readReg_of_ge h]

theorem pushRule_of_outOfBounds {reg : Byte} (h : reg.toNat < 8) (hs : s.sp = 0 ∨ P.memSize < s.sp) :
    pushRule P reg s = .error (.outOfBounds ((s.sp : Int) - 1)) := by
  have : ¬ InMemory P s.pushAddress := by simp only [InMemory, State.pushAddress]; omega
  simp only [pushRule, State.readReg_of_lt h, State.memWrite_of_out this]
  rfl

theorem popRule_of_badReg {reg : Byte} (h : 8 ≤ reg.toNat) :
    popRule P reg s = .error (.invalidRegister reg) := by
  simp [popRule, State.readReg_of_ge h]

theorem popRule_of_outOfBounds {reg : Byte} (h : reg.toNat < 8) (hs : P.memSize ≤ s.sp) :
    popRule P reg s = .error (.outOfBounds s.sp) := by
  have : s.memRead P s.popAddress = .error (.outOfBounds s.sp) := State.memRead_nat_eq_error.2 ⟨hs, rfl⟩
  simp only [popRule, State.readReg_of_lt h, this]

theorem hltRule_eq : hltRule s = .ok s.halt := rfl

/-! The cycle around a rule -/

/-- A cycle has two ends: the rule's state advanced, or the fault entry from the cycle's first state. -/
theorem cycle_cases {m : Mnemonic} {rule : State → Except Raise State} :
    (∃ u, rule (s.latchIr (P.opcode m)) = .ok u ∧ cycle P m rule s = .next u.advance) ∨
    (∃ r, rule (s.latchIr (P.opcode m)) = .error r ∧
      cycle P m rule s = .next (s.enterFault r (some (P.opcode m)))) := by
  cases h : rule (s.latchIr (P.opcode m)) <;> simp [cycle, h]

theorem cycle_of_ok {m : Mnemonic} {rule : State → Except Raise State} {u : State}
    (h : rule (s.latchIr (P.opcode m)) = .ok u) : cycle P m rule s = .next u.advance := by
  simp [cycle, h]

theorem cycle_of_error {m : Mnemonic} {rule : State → Except Raise State} {r : Raise}
    (h : rule (s.latchIr (P.opcode m)) = .error r) :
    cycle P m rule s = .next (s.enterFault r (some (P.opcode m))) := by
  simp [cycle, h]

end Sys2Proof.Machine
end

