-- ==== Sys2Proof/Laws/PerInstr.lean ====
section
/-! SUPPORT. The per-instruction families of LAWS.json, each with one lemma per constructor of Instr. -/

namespace Sys2Proof.Laws

namespace EncodingShape

/-- R70, R71: under an accepted assignment an encoding is its opcode byte followed by `opcode >> 6` operand
bytes. -/
def Statement (i : Instr) : Prop :=
  ∀ P : Params, P.wf = true →
    (encode P i).head? = some (P.opcode i.mnemonic) ∧
      (encode P i).length = 1 + operandCountOf (P.opcode i.mnemonic)

theorem hlt : Statement .hlt := fun _ h => by
  simp [encode, Instr.mnemonic, operandCountOf_opcode h, Mnemonic.operandCount]

theorem ldi (reg imm : Byte) : Statement (.ldi reg imm) := fun _ h => by
  simp [encode, Instr.mnemonic, operandCountOf_opcode h, Mnemonic.operandCount]

theorem prn (reg : Byte) : Statement (.prn reg) := fun _ h => by
  simp [encode, Instr.mnemonic, operandCountOf_opcode h, Mnemonic.operandCount]

theorem mul (regA regB : Byte) : Statement (.mul regA regB) := fun _ h => by
  simp [encode, Instr.mnemonic, operandCountOf_opcode h, Mnemonic.operandCount]

theorem add (regA regB : Byte) : Statement (.add regA regB) := fun _ h => by
  simp [encode, Instr.mnemonic, operandCountOf_opcode h, Mnemonic.operandCount]

theorem push (reg : Byte) : Statement (.push reg) := fun _ h => by
  simp [encode, Instr.mnemonic, operandCountOf_opcode h, Mnemonic.operandCount]

theorem pop (reg : Byte) : Statement (.pop reg) := fun _ h => by
  simp [encode, Instr.mnemonic, operandCountOf_opcode h, Mnemonic.operandCount]

end EncodingShape

end Sys2Proof.Laws
end

