-- ==== Sys2Proof/Laws/Step.lean ====
section
/-! SUPPORT. What fetch and a step can do. -/

namespace Sys2Proof.Machine

variable {P : Params} {s t : State}

theorem State.fetchOperand_of_in {n k : Nat} (hk : k ≤ n) (h : s.pc + k < P.memSize) :
    s.fetchOperand P n k = .ok (s.mem.read (s.pc + k)) := by
  rw [State.fetchOperand, if_pos hk]; exact State.memRead_nat_eq_ok.2 ⟨h, rfl⟩

theorem State.fetchOperand_of_out {n k : Nat} (hk : k ≤ n) (h : P.memSize ≤ s.pc + k) :
    s.fetchOperand P n k = .error (.outOfBounds ((s.pc + k : Nat) : Int)) := by
  rw [State.fetchOperand, if_pos hk]; exact State.memRead_nat_eq_error.2 ⟨h, rfl⟩

theorem State.fetchOperand_unread {n k : Nat} (hk : n < k) : s.fetchOperand P n k = .ok 0 :=
  if_neg (by omega)

theorem State.fetchOperand_eq_ok {n k : Nat} {v : Byte} (h : s.fetchOperand P n k = .ok v) :
    (k ≤ n ∧ s.pc + k < P.memSize ∧ s.mem.read (s.pc + k) = v) ∨ (n < k ∧ v = 0) := by
  unfold State.fetchOperand at h
  split at h
  · obtain ⟨⟨-, hlt⟩, hv⟩ := State.memRead_eq_ok.1 h
    exact .inl ⟨‹_›, by omega, hv⟩
  · exact .inr ⟨by omega, by simpa using h.symm⟩

theorem State.fetchOperand_eq_error {n k : Nat} {r : Raise} (h : s.fetchOperand P n k = .error r) :
    k ≤ n ∧ P.memSize ≤ s.pc + k ∧ r = .outOfBounds ((s.pc + k : Nat) : Int) := by
  unfold State.fetchOperand at h
  split at h
  · obtain ⟨hn, hr⟩ := State.memRead_eq_error.1 h
    exact ⟨‹_›, by simp only [InMemory] at hn; omega, hr⟩
  · simp at h

/-- A fetch that gives an instruction: pc is in memory, the byte there is the instruction's opcode, and the
instruction's own bytes are all in memory. -/
theorem State.fetch_instr {i : Instr} (h : s.fetch P = .instr i) :
    s.pc < P.memSize ∧ P.opcode i.mnemonic = s.mem.read s.pc ∧
      ∃ op1 op2, s.fetchOperand P (operandCountOf (s.mem.read s.pc)) 1 = .ok op1 ∧
        s.fetchOperand P (operandCountOf (s.mem.read s.pc)) 2 = .ok op2 ∧
        i = assemble i.mnemonic op1 op2 := by
  unfold State.fetch at h
  split at h
  · cases h
  · rename_i b hb
    obtain ⟨hlt, rfl⟩ := State.memRead_nat_eq_ok.1 hb
    split at h
    · cases h
    · rename_i c hc
      obtain ⟨hm, hn, -⟩ := decodeOpcode_some hc
      split at h
      · cases h
      · split at h
        · cases h
        · cases h
          rw [← hn]
          exact ⟨hlt, by simpa using hm, _, _, ‹_›, ‹_›, by simp⟩

/-- A fetch that raises: what it raises, and with which opcode byte in the record. -/
theorem State.fetch_raised {r : Raise} {ir : Option Byte} (h : s.fetch P = .raised r ir) :
    (P.memSize ≤ s.pc ∧ r = .outOfBounds s.pc ∧ ir = none) ∨
    (s.pc < P.memSize ∧ ir = some (s.mem.read s.pc) ∧
      ((decodeOpcode P (s.mem.read s.pc) = none ∧ r = .unknownOpcode (s.mem.read s.pc)) ∨
        ∃ k, k ≤ operandCountOf (s.mem.read s.pc) ∧ P.memSize ≤ s.pc + k ∧
          r = .outOfBounds ((s.pc + k : Nat) : Int))) := by
  unfold State.fetch at h
  split at h
  · rename_i hb
    obtain ⟨hle, rfl⟩ := State.memRead_nat_eq_error.1 hb
    cases h
    exact .inl ⟨hle, rfl, rfl⟩
  · rename_i b hb
    obtain ⟨hlt, rfl⟩ := State.memRead_nat_eq_ok.1 hb
    refine .inr ⟨hlt, ?_⟩
    split at h
    · cases h; exact ⟨rfl, .inl ⟨‹_›, rfl⟩⟩
    · rename_i c hc
      obtain ⟨-, hn, -⟩ := decodeOpcode_some hc
      split at h
      · cases h
        obtain ⟨h1, h2, h3⟩ := State.fetchOperand_eq_error ‹_›
        exact ⟨rfl, .inr ⟨1, hn ▸ h1, h2, h3⟩⟩
      · split at h
        · cases h
          obtain ⟨h1, h2, h3⟩ := State.fetchOperand_eq_error ‹_›
          exact ⟨rfl, .inr ⟨2, hn ▸ h1, h2, h3⟩⟩
        · cases h

/-- The meanings are the execute half at the default parameters. -/
theorem exec_eq_execWith (i : Instr) (s : State) : exec i s = execWith Config.params i s := by
  cases i <;> rfl

/-- The step is the parametric step at the default parameters. -/
theorem step_eq_stepWith (s : State) : step s = stepWith Config.params s := by
  rw [step, stepWith, show exec = execWith Config.params from funext₂ exec_eq_execWith]

/-- Which rule an instruction's cycle runs (R105). -/
def executeRule (P : Params) : Instr → State → Except Raise State
  | .hlt => hltRule
  | .ldi reg imm => ldiRule reg imm
  | .prn reg => prnRule reg
  | .mul a b => aluRule .mul a b
  | .add a b => aluRule .add a b
  | .push reg => pushRule P reg
  | .pop reg => popRule P reg

@[simp] theorem executeRule_hlt : executeRule P .hlt = hltRule := rfl
@[simp] theorem executeRule_ldi (r v : Byte) : executeRule P (.ldi r v) = ldiRule r v := rfl
@[simp] theorem executeRule_prn (r : Byte) : executeRule P (.prn r) = prnRule r := rfl
@[simp] theorem executeRule_mul (a b : Byte) : executeRule P (.mul a b) = aluRule .mul a b := rfl
@[simp] theorem executeRule_add (a b : Byte) : executeRule P (.add a b) = aluRule .add a b := rfl
@[simp] theorem executeRule_push (r : Byte) : executeRule P (.push r) = pushRule P r := rfl
@[simp] theorem executeRule_pop (r : Byte) : executeRule P (.pop r) = popRule P r := rfl

theorem execWith_eq_cycle (i : Instr) : execWith P i s = cycle P i.mnemonic (executeRule P i) s := by
  cases i <;> rfl

/-- An instruction's meaning is the cycle around its rule; `cycle_cases` says what that can do. -/
theorem exec_eq_cycle (i : Instr) (s : State) :
    exec i s = cycle Config.params i.mnemonic (executeRule Config.params i) s := by
  rw [exec_eq_execWith, execWith_eq_cycle]

/-- A step outside Running leaves the state as it is. -/
theorem stepWith_stopped (h : s.fsm ≠ .running) : stepWith P s = .next s := by
  unfold stepWith stepThrough
  split <;> simp_all

/-- A step in Running: the fetch raises, or the fetched instruction's rule raises, or its rule's state is
advanced. -/
theorem stepWith_cases (h : s.fsm = .running) :
    (∃ r ir, s.fetch P = .raised r ir ∧ stepWith P s = .next (s.enterFault r ir)) ∨
    (∃ i, s.fetch P = .instr i ∧
      ((∃ r, executeRule P i (s.latchIr (P.opcode i.mnemonic)) = .error r ∧
          stepWith P s = .next (s.enterFault r (some (P.opcode i.mnemonic)))) ∨
        ∃ u, executeRule P i (s.latchIr (P.opcode i.mnemonic)) = .ok u ∧
          stepWith P s = .next u.advance)) := by
  cases hf : s.fetch P with
  | raised r ir => exact .inl ⟨r, ir, rfl, by simp [stepWith, stepThrough, h, hf]⟩
  | instr i =>
    have e : stepWith P s = cycle P i.mnemonic (executeRule P i) s := by
      simp [stepWith, stepThrough, h, hf, execWith_eq_cycle]
    refine .inr ⟨i, rfl, ?_⟩
    rw [e]
    obtain ⟨u, hu, hc⟩ | ⟨r, hr, hc⟩ := cycle_cases (P := P) (s := s) (m := i.mnemonic) (rule := executeRule P i)
    · exact .inr ⟨u, hu, hc⟩
    · exact .inl ⟨r, hr, hc⟩

/-- Every execute rule that completes keeps pc, ir, the fault record, and keeps Running but for HLT. -/
theorem executeRule_control {i : Instr} {u : State} (h : executeRule P i s = .ok u) :
    u.pc = s.pc ∧ u.ir = s.ir ∧ u.fault = s.fault ∧ u.fsm = if i = .hlt then .halted else s.fsm := by
  cases i with
  | hlt => simp only [executeRule, hltRule_eq, Except.ok.injEq] at h; subst h; simp
  | ldi reg imm => obtain ⟨_, rfl⟩ := ldiRule_eq_ok.1 h; simp
  | prn reg => obtain ⟨_, rfl⟩ := prnRule_eq_ok.1 h; simp
  | mul a b => obtain ⟨_, _, rfl⟩ := aluRule_eq_ok.1 h; simp
  | add a b => obtain ⟨_, _, rfl⟩ := aluRule_eq_ok.1 h; simp
  | push reg => obtain ⟨_, _, _, rfl⟩ := pushRule_eq_ok.1 h; simp
  | pop reg => obtain ⟨_, _, rfl⟩ := popRule_eq_ok.1 h; simp

end Sys2Proof.Machine
end

