-- ==== Sys2Proof/Machine/Assembly.lean ====
section
/-! DEFINITION. The assembly syntax of R83 (D15, log entry 21): one instruction per line, `;` starting a
comment, register operands written R<n>, numbers in decimal, 0x hexadecimal or 0b binary. No step depends on
it; it writes down what the encoder's input looks like as text. -/

namespace Sys2Proof.Machine

/-- The value of one digit, hexadecimal in either case. -/
def digitValue (c : Char) : Option Nat :=
  if '0' ≤ c ∧ c ≤ '9' then some (c.toNat - 48)
  else if 'a' ≤ c ∧ c ≤ 'f' then some (c.toNat - 87)
  else if 'A' ≤ c ∧ c ≤ 'F' then some (c.toNat - 55)
  else none

/-- The value of a digit string, most significant digit first, continuing from `acc`; none if a digit is
not below `base`. -/
def digitsFrom (base acc : Nat) : List Char → Option Nat
  | [] => some acc
  | c :: cs =>
    match digitValue c with
    | none => none
    | some d => if d < base then digitsFrom base (acc * base + d) cs else none

/-- A number that fits a byte. -/
def parseNumber : List Char → Option Byte
  | [] => none
  | ['0', 'x'] => none
  | ['0', 'b'] => none
  | text =>
    let value :=
      match text with
      | '0' :: 'x' :: ds => digitsFrom 16 0 ds
      | '0' :: 'b' :: ds => digitsFrom 2 0 ds
      | ds => digitsFrom 10 0 ds
    value.bind fun v => if v ≤ 255 then some (BitVec.ofNat 8 v) else none

/-- A register operand R<n>; n may be any byte and faults at run time from 8 on (R83, R75). -/
def parseReg : List Char → Option Byte
  | 'R' :: ds => parseNumber ds
  | _ => none

/-- The pieces between commas, each without its blanks. -/
def splitCommas : List Char → List (List Char)
  | [] => [[]]
  | c :: cs =>
    if c = ',' then [] :: splitCommas cs
    else
      match splitCommas cs with
      | [] => [[c]]
      | l :: ls => (c :: l) :: ls

/-- A two-operand form `<reg>, <second>`. -/
def parsePair (second : List Char → Option Byte) (mk : Byte → Byte → Instr) : List (List Char) → Option Instr
  | [a, b] => (parseReg a).bind fun r => (second b).map (mk r)
  | _ => none

/-- A one-operand form `<reg>`. -/
def parseOne (mk : Byte → Instr) : List (List Char) → Option Instr
  | [a] => (parseReg a).map mk
  | _ => none

/-- One line of R83: `some none` for a line with nothing but blanks and a comment, `none` for a line that is
no instruction. -/
def parseAsmLine (line : List Char) : Option (Option Instr) :=
  let code := trim (line.takeWhile fun c => c != ';')
  let name := code.takeWhile fun c => !isBlank c
  let operands := (splitCommas (code.dropWhile fun c => !isBlank c)).map trim
  match name with
  | [] => some none
  | ['H', 'L', 'T'] => if operands = [[]] then some (some .hlt) else none
  | ['L', 'D', 'I'] => (parsePair parseNumber .ldi operands).map some
  | ['P', 'R', 'N'] => (parseOne .prn operands).map some
  | ['M', 'U', 'L'] => (parsePair parseReg .mul operands).map some
  | ['A', 'D', 'D'] => (parsePair parseReg .add operands).map some
  | ['P', 'U', 'S', 'H'] => (parseOne .push operands).map some
  | ['P', 'O', 'P'] => (parseOne .pop operands).map some
  | _ => none

/-- The image of a program in assembly (R83): the encodings of its lines, in order. -/
def assembleLines (P : Params) : List (List Char) → Option (List Byte)
  | [] => some []
  | l :: ls =>
    match parseAsmLine l, assembleLines P ls with
    | some none, rest => rest
    | some (some i), some rest => some (encode P i ++ rest)
    | _, _ => none

end Sys2Proof.Machine
end

