-- ==== Sys2Proof/Tests/Slice0.lean ====
section
/-! SUPPORT. The model's own tests, and a witness for every obligation that has hypotheses. Every expected
result is a row of spec/95_test_vectors.md (V and W numbers) or written out from the rule named. -/

open Sys2Proof Sys2Proof.Machine

namespace Sys2Proof.Tests

/-! ## A small state -/

/-- The reset state with the bytes `code` at `pc`, `sp`, and register values `r0` to `r3`. -/
def at_ (pc : Nat) (code : List Byte) (sp : Nat := 6) (r0 r1 r2 r3 : Byte := 0) : State :=
  { State.reset with mem := Memory.load pc code [], pc := pc, sp := sp, x := #v[r0, r1, r2, r3, 0, 0, 0, 0] }

/-- What `f` sees of the next state. -/
def seen {α : Type} (f : State → α) (o : Host.Outcome State Fault Refusal) : Option α :=
  match o with
  | .next t => some (f t)
  | .fault _ => none
  | .refused _ => none

/-- A byte of the next state's memory. -/
def byteAt (a : Nat) (s : State) : Byte := s.mem.read a

/-! ## Well-formedness: each check refuses an ill-formed term -/

theorem test_wf_default : Config.params.wf = true := by decide
theorem test_wf_refuses_operand_count : { Config.params with opcPrn := 0x87 }.wf = false := by decide
theorem test_wf_refuses_operand_count_three : { Config.params with opcAdd := 0xC0 }.countsAgree = false := by
  decide
theorem test_wf_refuses_equal_opcodes : { Config.params with opcPush := 0x46 }.wf = false := by decide
theorem test_wf_refuses_equal_to_ldi : { Config.params with opcMul := 0x82 }.opcodesDistinct = false := by decide
theorem test_regs_in_range : (Instr.ldi 7 255).regsInRange = true := by decide
theorem test_regs_refuse_op1 : (Instr.pop 8).regsInRange = false := by decide
theorem test_regs_refuse_op2 : (Instr.add 7 8).regsInRange = false := by decide

/-! ## Decoding: words written out bit by bit from spec/opcode_table.json and R77 -/

theorem test_decode_hlt : decodeTableWord 8 0b00000001 = some .hlt := by decide
theorem test_decode_ldi : decodeTableWord 24 0b11111111_00000111_10000010 = some (.ldi 7 255) := by decide
theorem test_decode_prn : decodeTableWord 16 0b00000101_01000111 = some (.prn 5) := by decide
theorem test_decode_mul : decodeTableWord 24 0b00000001_00000000_10100010 = some (.mul 0 1) := by decide
theorem test_decode_add : decodeTableWord 24 0b00001010_00001001_10100000 = some (.add 9 10) := by decide
theorem test_decode_push : decodeTableWord 16 0b00000011_01000101 = some (.push 3) := by decide
theorem test_decode_pop : decodeTableWord 16 0b00000010_01000110 = some (.pop 2) := by decide
/-- A row given without its operand bits has operand bytes of zeros. -/
theorem test_decode_short : decodeTableWord 8 0xA0 = some (.add 0 0) := by decide
/-- The UnknownOpcode rows of 95_test_vectors.md. -/
theorem test_decode_unknown :
    [0x00, 0x02, 0x40, 0x48, 0x83, 0xA1, 0xC2, 0xFF].map (decodeTableWord 24) = List.replicate 8 none := by
  decide
/-- R80: seven of the 256 bytes are instructions. -/
theorem test_seven_opcodes :
    ((List.range 256).filter fun n => (decodeOpcode Config.params (BitVec.ofNat 8 n)).isSome) =
      [0x01, 0x45, 0x46, 0x47, 0x82, 0xA0, 0xA2] := by decide
theorem test_encode_mul : encode Config.params (.mul 2 3) = [0xA2, 2, 3] := by decide

/-! ## One step of each instruction -/

/-- V11. -/
theorem test_ldi_last : seen (fun t => (t.x[7], t.pc)) (step (at_ 0 [0x82, 7, 0xFF])) = some (255, 3) := by decide
/-- V13. -/
theorem test_ldi_bad_register :
    seen (fun t => (t.fault, t.pc, t.x[0])) (step (at_ 0 [0x82, 8, 1])) =
      some (some ⟨.invalidRegister, 0, some 0x82, 8⟩, 0, 0) := by decide
/-- P1's PRN. -/
theorem test_prn : seen (fun t => (t.out, t.pc)) (step (at_ 0 [0x47, 0] 6 30)) = some ([30], 2) := by decide
/-- V22. -/
theorem test_prn_bad_register :
    seen (fun t => (t.fault, t.out)) (step { at_ 0 [0x47, 9] with out := [1] }) =
      some (some ⟨.invalidRegister, 0, some 0x47, 9⟩, [1]) := by decide
/-- V44. -/
theorem test_mul_wraps :
    seen (fun t => (t.x[0], t.x[1], t.pc)) (step (at_ 0 [0xA2, 0, 1] 6 200 3)) = some (88, 3, 3) := by decide
/-- V45. -/
theorem test_mul_square : seen (fun t => t.x[2]) (step (at_ 0 [0xA2, 2, 2] 6 0 0 20)) = some 144 := by decide
/-- V33. -/
theorem test_add_wraps :
    seen (fun t => (t.x[0], t.x[1], t.pc)) (step (at_ 0 [0xA0, 0, 1] 6 200 100)) = some (44, 100, 3) := by decide
/-- V38: op1 is checked before op2. -/
theorem test_add_bad_registers :
    seen (fun t => t.fault) (step (at_ 0 [0xA0, 9, 10])) = some (some ⟨.invalidRegister, 0, some 0xA0, 9⟩) := by
  decide
/-- V52. -/
theorem test_push_at_zero :
    seen (fun t => (t.fault, t.sp)) (step (at_ 0 [0x45, 0] 0)) =
      some (some ⟨.outOfBounds, 0, some 0x45, -1⟩, 0) := by decide
/-- V55: PUSH overwrites its own opcode and still has its own length. -/
theorem test_push_own_opcode :
    seen (fun t => (byteAt 5 t, t.sp, t.pc)) (step (at_ 5 [0x45, 0] 6 1)) = some (1, 5, 7) := by decide
/-- V61: no underflow check. -/
theorem test_pop_empty :
    seen (fun t => (t.x[1], t.sp, byteAt 6 t)) (step (at_ 6 [0x46, 1])) = some (0x46, 7, 0x46) := by decide
/-- V63. -/
theorem test_pop_at_end :
    seen (fun t => (t.fault, t.sp)) (step (at_ 0 [0x46, 0] 255)) =
      some (some ⟨.outOfBounds, 0, some 0x46, 255⟩, 255) := by decide
/-- V7. -/
theorem test_hlt : seen (fun t => (t.fsm, t.pc)) (step (at_ 10 [0x01])) = some (.halted, 10) := by decide

/-! ## Fetch, in the order of R205 -/

/-- V1. -/
theorem test_fetch_past_end :
    seen (fun t => t.fault) (step (at_ 255 [])) = some (some ⟨.outOfBounds, 255, none, 255⟩) := by decide
/-- V2. -/
theorem test_fetch_unknown_first :
    seen (fun t => t.fault) (step (at_ 254 [0x83])) = some (some ⟨.unknownOpcode, 254, some 0x83, 0x83⟩) := by
  decide
/-- V4. -/
theorem test_fetch_second_operand :
    seen (fun t => t.fault) (step (at_ 253 [0x82, 0])) = some (some ⟨.outOfBounds, 253, some 0x82, 255⟩) := by
  decide
/-- V5. -/
theorem test_fetch_last_three :
    seen (fun t => (t.x[0], t.pc)) (step (at_ 252 [0x82, 0, 7])) = some (7, 255) := by decide
/-- V71. -/
theorem test_halted_stays :
    seen id (step { at_ 0 [0x01] with fsm := .halted }) = some { at_ 0 [0x01] with fsm := .halted } := by decide
/-- The instruction word placed at reset runs first. -/
theorem test_placed_word :
    seen (fun t => (t.x[1], t.pc)) (step (State.reset.withFetchWord 24 0x060182)) = some (6, 3) := by decide

/-! ## Loader and trace -/

/-- What `f` sees of the launch state. -/
def launched {α : Type} (f : State → α) (r : Except LoadError State) : Option α :=
  match r with
  | .ok s => some (f s)
  | .error _ => none

/-- W6. -/
theorem test_loader_hlt :
    launched (fun s => (byteAt 0 s, s.mem.length)) (loadText Config.params (some "00000001\n".toList)) =
      some (1, 1) := by decide
/-- W7, after a comment line and a blank line. -/
theorem test_loader_comment :
    launched (fun s => byteAt 0 s) (loadText Config.params (some "# image\n \n10000010 # LDI\n".toList)) =
      some 0x82 := by decide
/-- R234: a value above 255, and a digit 2. -/
theorem test_loader_refuses :
    launched id (loadText Config.params (some "100000000".toList)) = none ∧
      launched id (loadText Config.params (some "00000002".toList)) = none := by decide
/-- P1's assembly gives P1's image. -/
theorem test_assembly_p1 :
    assembleLines Config.params
        (["LDI R0, 5", "LDI R1, 0x6 ; six", "", "MUL R0, R1", "PRN R0", "HLT"].map String.toList) =
      some [0x82, 0, 5, 0x82, 1, 6, 0xA2, 0, 1, 0x47, 0, 1] := by decide
/-- R83: a register operand needs its R, a number fits a byte. -/
theorem test_assembly_refuses :
    ["ADD R0, 8", "LDI R0, 256", "PUSH R0b2", "HLT R0", "SUB R0, R1"].map (fun l => parseAsmLine l.toList) =
      List.replicate 5 none := by decide
/-- R222: at the last address two of the three bytes are absent. -/
theorem test_trace_end : ((at_ 254 [1]).trace Config.params).bytes = #v[some 1, none, none] := by decide

/-! ## Witnesses: concrete terms that meet the hypotheses of each obligation -/

def small : State := at_ 0 [0x45, 0] 6 42

theorem witness_LaunchWritesImageFromZero :
    [0x01#8].length ≤ Config.params.memSize ∧ (0 < [0x01#8].length) ∧
      [0x01#8].length ≤ 254 ∧ 254 < Config.params.memSize := by decide
theorem witness_OverlongImageIsRefused :
    Config.params.memSize < (List.replicate 256 (0 : Byte)).length := by
  rw [List.length_replicate]; decide
theorem witness_LoaderReadsBytesAndDropsComments :
    ∀ l ∈ [(some (0x82#8), ['L', '#']), (none, [])], '\n' ∉ l.2 := by decide
theorem witness_NonBinaryLineIsRefused :
    ['1', '2'] ∈ splitLines ['1', '2', '\n'] ∧ '2' ∈ ['1', '2'].takeWhile (fun d => d != '#') ∧
      '2' ≠ '0' ∧ '2' ≠ '1' ∧ isBlank '2' = false := by decide
theorem witness_InvariantHoldsAtEveryLaunch :
    ∃ s, launchWith Config.params [0x01] = .ok s := ⟨_, rfl⟩
theorem witness_EveryStepKeepsInvariant :
    ∃ t, State.reset.Inv Config.params ∧ step State.reset = .next t :=
  ⟨_, ⟨by decide, by decide, by decide, by decide, by decide, nofun, nofun, nofun⟩, rfl⟩
theorem witness_DecodeInvertsEncode : Config.params.wf = true := by decide
theorem witness_EncodeInvertsDecode :
    Config.params.wf = true ∧ decode Config.params [0x47, 3, 9] = .ok (.prn 3, [9]) := ⟨by decide, rfl⟩
theorem witness_LengthComesFromTopTwoBits :
    Config.params.wf = true ∧ decode Config.params [0x82, 1, 2, 3] = .ok (.ldi 1 2, [3]) := ⟨by decide, rfl⟩
theorem witness_UnknownOpcodeFaultsBeforeOperands :
    (at_ 254 [0x83]).fsm = .running ∧ (at_ 254 [0x83]).memRead Config.params 254 = .ok 0x83 ∧
      ∀ m, Config.params.opcode m ≠ 0x83 := ⟨rfl, rfl, fun m => by cases m <;> decide⟩
theorem witness_StepRunsDecodedInstruction :
    small.fsm = .running ∧
      decode Config.params (small.codeAt Config.params small.pc) = .ok (.push 0, [0]) := ⟨rfl, rfl⟩
theorem witness_PlacedWordRunsNext :
    (at_ 252 []).mem.wf = true ∧ (at_ 252 []).pc + 3 ≤ Config.params.memSize ∧
      decodeTableWord 16 0x0045 = some (.push 0) := by decide
theorem witness_PcAdvancesByOpcodeTopBits :
    ∃ t, small.fsm = .running ∧ small.memRead Config.params small.pc = .ok 0x45 ∧
      0x45#8 ≠ Config.params.opcode .hlt ∧ step small = .next t ∧ t.fsm ≠ .faulted :=
  ⟨_, rfl, rfl, by decide, rfl, by decide⟩
theorem witness_StepHaltsExactlyAtHlt :
    ∃ t, (at_ 0 [0x01]).fsm = .running ∧ step (at_ 0 [0x01]) = .next t ∧ t.fsm = .halted := ⟨_, rfl, rfl, rfl⟩
theorem witness_TerminalStatesStay :
    { small with fsm := .halted }.fsm ≠ .running ∧ { small with fsm := .faulted }.fsm ≠ .running := by decide
/-- One state for each condition of R205's order, and one that completes. -/
theorem witness_FaultsFollowTheCheckOrder :
    Config.params.wf = true ∧
    (at_ 255 []).firstFault Config.params = some ⟨.outOfBounds, 255, none, 255⟩ ∧
    (at_ 254 [0x83]).firstFault Config.params = some ⟨.unknownOpcode, 254, some 0x83, 0x83⟩ ∧
    (at_ 254 [0x82]).firstFault Config.params = some ⟨.outOfBounds, 254, some 0x82, 255⟩ ∧
    (at_ 253 [0x82, 8]).firstFault Config.params = some ⟨.outOfBounds, 253, some 0x82, 255⟩ ∧
    (at_ 0 [0xA0, 8, 9]).firstFault Config.params = some ⟨.invalidRegister, 0, some 0xA0, 8⟩ ∧
    (at_ 0 [0xA2, 7, 8]).firstFault Config.params = some ⟨.invalidRegister, 0, some 0xA2, 8⟩ ∧
    (at_ 0 [0x45, 7] 0).firstFault Config.params = some ⟨.outOfBounds, 0, some 0x45, -1⟩ ∧
    (at_ 0 [0x45, 7] 256).firstFault Config.params = some ⟨.outOfBounds, 0, some 0x45, 255⟩ ∧
    (at_ 0 [0x46, 7] 255).firstFault Config.params = some ⟨.outOfBounds, 0, some 0x46, 255⟩ ∧
    (at_ 0 [0x82, 7, 8]).firstFault Config.params = none := by decide
theorem witness_FaultingStepIsAtomic :
    ∃ t, (at_ 255 []).fsm = .running ∧ step (at_ 255 []) = .next t ∧ t.fsm = .faulted := ⟨_, rfl, rfl, rfl⟩
theorem witness_EveryRunEndsWithinBound : Config.params.memSize - State.reset.pc + 1 ≤ 256 := by decide
/-- Both ends of the address range, and both sides outside it. -/
theorem witness_MemoryPrimitivesCheckBoundsAndStore :
    small.mem.wf = true ∧ InMemory Config.params 0 ∧ InMemory Config.params 254 ∧
      ¬ InMemory Config.params (-1) ∧ ¬ InMemory Config.params 255 := by decide
theorem witness_RegisterFileHasEightSeparateRegisters :
    (0#8).toNat < 8 ∧ (7#8).toNat < 8 ∧ 8 ≤ (8#8).toNat ∧ 8 ≤ (255#8).toNat := by decide
theorem witness_LdiLoadsImmediate : (7#8).toNat < 8 ∧ small.fsm = .running := by decide
theorem witness_PrnAppendsRegisterToOutput : small.readReg 0 = .ok 42 ∧ small.fsm = .running := ⟨rfl, rfl⟩
theorem witness_AluResultsAreModulo256 :
    small.readReg 0 = .ok 42 ∧ small.readReg 7 = .ok 0 ∧ small.fsm = .running := ⟨rfl, rfl, rfl⟩
theorem witness_PushStoresBelowTop :
    small.mem.wf = true ∧ small.readReg 0 = .ok 42 ∧ small.fsm = .running ∧ 0 < small.sp ∧
      small.sp ≤ Config.params.memSize := ⟨by decide, rfl, rfl, by decide, by decide⟩
theorem witness_PopLoadsTop :
    (7#8).toNat < 8 ∧ (at_ 0 [0x46, 7] 254).memRead Config.params 254 = .ok 0 ∧
      (at_ 0 [0x46, 7] 254).fsm = .running := ⟨by decide, rfl, rfl⟩
theorem witness_PushThenPopRoundTrips :
    small.mem.wf = true ∧ small.readReg 0 = .ok 42 ∧ (5#8).toNat < 8 ∧ small.fsm = .running ∧ 0 < small.sp ∧
      small.sp ≤ Config.params.memSize := ⟨by decide, rfl, by decide, rfl, by decide, by decide⟩
theorem witness_NextFetchSeesPushedByte :
    (at_ 3 [0x45, 0] 6 1).mem.wf = true ∧ (at_ 3 [0x45, 0] 6 1).readReg 0 = .ok 1 ∧
      (at_ 3 [0x45, 0] 6 1).fsm = .running ∧ (at_ 3 [0x45, 0] 6 1).sp = (at_ 3 [0x45, 0] 6 1).pc + 3 ∧
      (at_ 3 [0x45, 0] 6 1).sp ≤ Config.params.memSize := ⟨by decide, rfl, rfl, rfl, by decide⟩
theorem witness_OnlyStackBoundsFaultWithValidRegisters :
    (∃ t, (Instr.push 0).regsInRange = true ∧ exec (.push 0) (at_ 0 [] 0) = .next t ∧ t.fsm = .faulted) ∧
      ∃ t, (Instr.pop 7).regsInRange = true ∧ exec (.pop 7) (at_ 0 [] 255) = .next t ∧ t.fsm = .faulted :=
  ⟨⟨_, by decide, rfl, rfl⟩, ⟨_, by decide, rfl, rfl⟩⟩
theorem witness_InvalidRegisterFaults :
    (Instr.add 7 8).regOperands.find? (fun q => decide (8 ≤ q.toNat)) = some 8 ∧
      (Instr.mul 255 8).regOperands.find? (fun q => decide (8 ≤ q.toNat)) = some 255 := by decide
theorem witness_StackOutOfBoundsFaults :
    (0#8).toNat < 8 ∧ (at_ 0 [] 0).sp = 0 ∧ Config.params.memSize < (at_ 0 [] 256).sp ∧
      Config.params.memSize ≤ (at_ 0 [] 255).sp := by decide
theorem witness_RegisterWritersFrame :
    (∃ t, exec (.ldi 7 1) small = .next t) ∧ (∃ t, exec (.mul 7 1) small = .next t) ∧
      ∃ t, exec (.add 7 1) small = .next t := ⟨⟨_, rfl⟩, ⟨_, rfl⟩, ⟨_, rfl⟩⟩
theorem witness_PopFrame : ∃ t, exec (.pop 7) small = .next t := ⟨_, rfl⟩
theorem witness_PushFrame : ∃ t, exec (.push 7) small = .next t := ⟨_, rfl⟩
theorem witness_PrnAndHltFrame :
    (∃ t, exec (.prn 7) small = .next t) ∧ ∃ t, exec .hlt small = .next t := ⟨⟨_, rfl⟩, ⟨_, rfl⟩⟩
theorem witness_RegistersChangeOnlyUnderWriters :
    ∃ t, exec (.ldi 1 9) small = .next t ∧ t.readReg 1 ≠ small.readReg 1 :=
  ⟨_, rfl, by simp [State.readReg, State.latchIr, State.advance, small, at_, State.reset, State.resetWith]⟩
theorem witness_MemoryChangesOnlyUnderPush :
    ∃ t, step small = .next t ∧ t.memRead Config.params 5 ≠ small.memRead Config.params 5 :=
  ⟨_, rfl, fun h => absurd (congrArg Except.toOption h) (by decide)⟩
theorem witness_SpChangesOnlyUnderPushAndPop :
    (∃ t, step small = .next t ∧ t.sp ≠ small.sp) ∧
      ∃ t, step (at_ 0 [0x46, 7]) = .next t ∧ t.sp ≠ (at_ 0 [0x46, 7]).sp :=
  ⟨⟨_, rfl, by decide⟩, ⟨_, rfl, by decide⟩⟩
theorem witness_OutputOnlyGrowsUnderPrn :
    ∃ t, step (at_ 0 [0x47, 0]) = .next t ∧ t.out ≠ (at_ 0 [0x47, 0]).out := ⟨_, rfl, by decide⟩

end Sys2Proof.Tests
end

section
/-! PROOFS. The memory primitives (R52). -/

namespace Sys2Proof.Proofs

open Sys2Proof.Machine

/-- The companion of `State.memRead_write_other`; here the canonical form is needed, since a write of 0 only
unlists the first cell of its address. -/
theorem memRead_write_same {P : Params} {s t : State} {a : Int} {v : Byte} (hwf : s.mem.wf = true)
    (ha : InMemory P a) (hm : t.mem = s.mem.write a.toNat v) : t.memRead P a = .ok v := by
  rw [State.memRead_of_in ha, hm, Memory.read_write_same a.toNat v hwf]

/-- Settles O25: the address is in memory or it is not, and the laws of the two primitives answer each case. -/
theorem memoryPrimitivesCheckBoundsAndStore : Obligations.MemoryPrimitivesCheckBoundsAndStore := by
  intro P s a v hwf
  constructor
  · intro hlo hhi
    have ha : InMemory P a := ⟨hlo, hhi⟩
    exact ⟨⟨_, State.memRead_of_in ha⟩, _, State.memWrite_of_in ha, memRead_write_same hwf ha rfl,
      fun _ hc => State.memRead_write_other ha rfl hc, rfl⟩
  · intro hout
    have ha : ¬ InMemory P a := by simp only [InMemory]; omega
    exact ⟨State.memRead_of_out ha, State.memWrite_of_out ha⟩

end Sys2Proof.Proofs
end

section
/-! PROOFS. Completed cycles and the advance of pc (R106, R112). -/

namespace Sys2Proof.Proofs

open Sys2Proof.Machine

variable {P : Params} {s t : State}

/-- A step from Running that does not end in Faulted is a cycle that ran to its end: neither its fetch nor its
rule raised (R109). -/
theorem exists_rule_of_stepWith_completed (hrun : s.fsm = .running) (hstep : stepWith P s = .next t)
    (hsafe : t.Safe) :
    ∃ i u, s.fetch P = .instr i ∧ executeRule P i (s.latchIr (P.opcode i.mnemonic)) = .ok u ∧
      t = u.advance := by
  obtain ⟨r, ir, -, hn⟩ | ⟨i, hf, ⟨r, -, hn⟩ | ⟨u, hu, hn⟩⟩ := stepWith_cases (P := P) hrun
  all_goals cases hstep.symm.trans hn
  · exact absurd rfl hsafe
  · exact absurd rfl hsafe
  · exact ⟨i, u, hf, hu, rfl⟩

/-- R112 at every parameter value: the rule leaves pc and the latched opcode byte alone, so the advance counts
from the byte that was fetched. -/
theorem stepWith_completed_pc (hrun : s.fsm = .running) (hhlt : s.mem.read s.pc ≠ P.opcode .hlt)
    (hstep : stepWith P s = .next t) (hsafe : t.Safe) :
    t.pc = s.pc + 1 + operandCountOf (s.mem.read s.pc) ∧ t.fsm = .running := by
  obtain ⟨i, u, hf, hu, rfl⟩ := exists_rule_of_stepWith_completed hrun hstep hsafe
  obtain ⟨-, hop, -⟩ := State.fetch_instr hf
  obtain ⟨hpc, hir, -, hfsm⟩ := executeRule_control hu
  have hi : i ≠ .hlt := by rintro rfl; exact hhlt hop.symm
  have hu_run : u.fsm = .running := by rw [hfsm, if_neg hi, State.latchIr_fsm, hrun]
  rw [State.advance_fsm, State.advance_pc_running _ hu_run, hpc, hir, State.latchIr_pc, State.latchIr_ir, hop]
  exact ⟨rfl, hu_run⟩

/-- Settles O18: `stepWith_completed_pc` at the default parameters. -/
theorem pcAdvancesByOpcodeTopBits : Obligations.PcAdvancesByOpcodeTopBits := by
  intro s t b hrun hread hhlt hstep hsafe
  obtain ⟨-, rfl⟩ := State.memRead_nat_eq_ok.1 hread
  rw [step_eq_stepWith] at hstep
  rw [← operandCountOf_eq]
  exact stepWith_completed_pc hrun hhlt hstep hsafe

end Sys2Proof.Proofs
end

section
/-! PROOFS. What the shared frame of a cycle leaves behind, and LDI (R106, R120, R121). -/

namespace Sys2Proof.Proofs

open Sys2Proof.Machine

variable {s : State}

/-- An instruction other than HLT whose rule completes from a Running state: the rule's state is advanced, and
pc, ir, fsm and the fault record are what the frame around the rule makes of them (R105, R106). -/
theorem exec_of_rule_ok {i : Instr} {u : State} (hi : i ≠ .hlt) (hrun : s.fsm = .running)
    (hu : executeRule Config.params i (s.latchIr (Config.params.opcode i.mnemonic)) = .ok u) :
    exec i s = .next u.advance ∧ u.advance.pc = s.pc + 1 + i.mnemonic.operandCount ∧
      u.advance.ir = Config.params.opcode i.mnemonic ∧ u.advance.fsm = .running ∧
      u.advance.fault = s.fault := by
  obtain ⟨hpc, hir, hfault, hfsm⟩ := executeRule_control hu
  have hu_run : u.fsm = .running := by rw [hfsm, if_neg hi, State.latchIr_fsm, hrun]
  refine ⟨(exec_eq_cycle i s).trans (cycle_of_ok hu), ?_, ?_, ?_, ?_⟩
  · rw [State.advance_pc_running _ hu_run, hpc, hir, State.latchIr_ir, State.latchIr_pc,
      operandCountOf_opcode params_wf]
  · rw [State.advance_ir, hir, State.latchIr_ir]
  · rw [State.advance_fsm, hu_run]
  · rw [State.advance_fault, hfault, State.latchIr_fault]

/-- Settles O27: LDI's rule sets its register and nothing else, and `exec_of_rule_ok` gives the rest. -/
theorem ldiLoadsImmediate : Obligations.LdiLoadsImmediate := by
  intro r v s hr hrun
  obtain ⟨hexec, hpc, hir, hfsm, hfault⟩ :=
    exec_of_rule_ok (i := .ldi r v) (by simp) hrun (ldiRule_eq_ok.2 ⟨hr, rfl⟩)
  refine ⟨_, hexec, ?_, ?_, ?_, ?_, ?_, hpc, hir, hfsm, hfault⟩
  · exact State.readReg_set_same hr (State.advance_x _)
  · exact fun q hq => State.readReg_set_other hr (State.advance_x _) hq
  · exact State.advance_mem _
  · exact State.advance_sp _
  · exact State.advance_out _

end Sys2Proof.Proofs
end

section
/-! PROOFS. The ALU's result byte, and its two instructions MUL and ADD (R131, R135, R138). -/

namespace Sys2Proof.Proofs

open Sys2Proof.Machine

theorem aluResult_toNat (op : AluOp) (va vb : Byte) :
    (aluResult op va vb).toNat = exactResult op va vb % 256 :=
  BitVec.toNat_ofNat _ _

theorem aluRule_of_readReg {s : State} {a b va vb : Byte} (op : AluOp) (ha : s.readReg a = .ok va)
    (hb : s.readReg b = .ok vb) :
    aluRule op a b s = s.writeReg a (aluResult op va vb) := by
  simp only [aluRule, ha, hb]

/-- Both ALU instructions at once: an instruction whose rule is the ALU's, run on two registers that can be read,
leaves the result of the old values in the first one, and the frame of `exec_of_rule_ok` around it. -/
theorem exec_of_aluRule {s : State} {i : Instr} {op : AluOp} {a b va vb : Byte} (hi : i ≠ .hlt)
    (hrule : executeRule Config.params i = aluRule op a b) (ha : s.readReg a = .ok va)
    (hb : s.readReg b = .ok vb) (hrun : s.fsm = .running) :
    ∃ t v, exec i s = .next t ∧ t.readReg a = .ok v ∧ v.toNat = exactResult op va vb % 256 ∧
      (∀ q, q ≠ a → t.readReg q = s.readReg q) ∧ t.mem = s.mem ∧ t.sp = s.sp ∧ t.out = s.out ∧
      t.pc = s.pc + 1 + i.mnemonic.operandCount ∧ t.ir = Config.params.opcode i.mnemonic ∧
      t.fsm = .running ∧ t.fault = s.fault := by
  obtain ⟨hreg, -⟩ := State.readReg_eq_ok.1 ha
  have hu := (aluRule_of_readReg (s := s.latchIr (Config.params.opcode i.mnemonic)) op ha hb).trans
    (State.writeReg_of_lt hreg)
  obtain ⟨hexec, hpc, hir, hfsm, hfault⟩ := exec_of_rule_ok hi hrun (hrule ▸ hu)
  refine ⟨_, _, hexec, ?_, aluResult_toNat op va vb, ?_, ?_, ?_, ?_, hpc, hir, hfsm, hfault⟩
  · exact State.readReg_set_same hreg (State.advance_x _)
  · exact fun q hq => State.readReg_set_other hreg (State.advance_x _) hq
  · exact State.advance_mem _
  · exact State.advance_sp _
  · exact State.advance_out _

/-- Settles O29: `exec_of_aluRule` at each of the ALU's two operations. -/
theorem aluResultsAreModulo256 : Obligations.AluResultsAreModulo256 := by
  intro a b va vb s ha hb hrun
  exact ⟨exec_of_aluRule (i := .add a b) (by simp) (executeRule_add a b) ha hb hrun,
    exec_of_aluRule (i := .mul a b) (by simp) (executeRule_mul a b) ha hb hrun⟩

end Sys2Proof.Proofs
end

section
/-! PROOFS. PUSH and POP when they complete, and the round trip through the stack (R150, R153, R155). -/

namespace Sys2Proof.Proofs

open Sys2Proof.Machine

variable {s : State}

/-- R150 with its frame: the whole of memory after a PUSH that completes is one write below the top. -/
theorem exec_push_of_readReg {r v : Byte} (hr : s.readReg r = .ok v) (hrun : s.fsm = .running)
    (hpos : 0 < s.sp) (hle : s.sp ≤ Config.params.memSize) :
    ∃ t, exec (.push r) s = .next t ∧ t.mem = s.mem.write (s.sp - 1) v ∧ t.x = s.x ∧ t.sp = s.sp - 1 ∧
      t.out = s.out ∧ t.pc = s.pc + 2 ∧ t.ir = Config.params.opcode .push ∧ t.fsm = .running ∧
      t.fault = s.fault := by
  obtain ⟨hreg, rfl⟩ := State.readReg_eq_ok.1 hr
  obtain ⟨hexec, hpc, hir, hfsm, hfault⟩ :=
    exec_of_rule_ok (i := .push r) (by simp) hrun (pushRule_eq_ok.2 ⟨hreg, hpos, hle, rfl⟩)
  refine ⟨_, hexec, ?_, ?_, ?_, ?_, hpc, hir, hfsm, hfault⟩
  · exact State.advance_mem _
  · exact State.advance_x _
  · exact State.advance_sp _
  · exact State.advance_out _

/-- R153 with its frame: the register file after a POP that completes is the old one with the byte at sp set. -/
theorem exec_pop_of_sp_lt {q : Byte} (hq : q.toNat < 8) (hrun : s.fsm = .running)
    (hsp : s.sp < Config.params.memSize) :
    ∃ t, exec (.pop q) s = .next t ∧ t.x = s.x.set q.toNat (s.mem.read s.sp) ∧ t.mem = s.mem ∧
      t.sp = s.sp + 1 ∧ t.out = s.out ∧ t.pc = s.pc + 2 ∧ t.ir = Config.params.opcode .pop ∧
      t.fsm = .running ∧ t.fault = s.fault := by
  have hu := popRule_eq_ok (s := s.latchIr (Config.params.opcode .pop)).2 ⟨hq, hsp, rfl⟩
  obtain ⟨hexec, hpc, hir, hfsm, hfault⟩ := exec_of_rule_ok (i := .pop q) (by simp) hrun hu
  refine ⟨_, hexec, ?_, ?_, ?_, ?_, hpc, hir, hfsm, hfault⟩
  · exact State.advance_x _
  · exact State.advance_mem _
  · exact State.advance_sp _
  · exact State.advance_out _

/-- Settles O33: POP reads at the address PUSH wrote, and POP's write goes to the register file only, so the byte
is still in memory afterwards. -/
theorem pushThenPopRoundTrips : Obligations.PushThenPopRoundTrips := by
  intro r q v s hwf hr hq hrun hpos hle
  obtain ⟨t, hpush, htmem, htx, htsp, -, -, -, htrun, -⟩ := exec_push_of_readReg hr hrun hpos hle
  have htop : t.mem.read t.sp = v := by rw [htmem, htsp, Memory.read_write_same _ _ hwf]
  obtain ⟨u, hpop, hux, humem, husp, -, -, -, hurun, -⟩ := exec_pop_of_sp_lt hq htrun (by omega)
  rw [htx, htop] at hux
  refine ⟨t, u, hpush, hpop, ?_, ?_, ?_, ?_, hurun⟩
  · exact State.readReg_set_same hq hux
  · exact fun p hp => State.readReg_set_other hq hux hp
  · omega
  · have hbelow : (s.sp : Int) - 1 = (t.sp : Int) := by omega
    rw [hbelow, State.memRead_nat_eq_ok, humem]
    exact ⟨by omega, htop⟩

end Sys2Proof.Proofs
end

section
/-! PROOFS. The launch state of an image that fits (R231). -/

namespace Sys2Proof.Proofs

open Sys2Proof.Machine

variable {P : Params} {image : List Byte}

theorem launchWith_of_length_le (hfit : image.length ≤ P.memSize) :
    launchWith P image =
      .ok { State.resetWith P with mem := Memory.load 0 image (State.resetWith P).mem } :=
  if_pos hfit

theorem read_load_zero {a : Nat} {m : Memory} (hwf : m.wf = true) (h : a < image.length) :
    (m.load 0 image).read a = image[a] := by
  rw [← Memory.read_load image 0 hwf h, Nat.zero_add]

/-- Settles O2: the image is loaded into the empty memory of reset, so an address below its length reads its image
byte and every other one still reads 0. -/
theorem launchWritesImageFromZero : Obligations.LaunchWritesImageFromZero := by
  intro P image hfit
  refine ⟨_, launchWith_of_length_le hfit, ?_, ?_, rfl, rfl⟩
  · intro a ha
    exact State.memRead_nat_eq_ok.2 ⟨by omega, read_load_zero rfl ha⟩
  · intro a hlo hhi
    exact State.memRead_nat_eq_ok.2 ⟨hhi, Memory.read_load_other image 0 [] (by omega)⟩

end Sys2Proof.Proofs
end

section
/-! PROOFS. The decoder and the encoder are inverse to each other (R70, R71, R74, R77, R79). -/

namespace Sys2Proof.Proofs

variable {P : Params}

/-- The operand bytes of an encoding, which follow its opcode byte in the order of R74. -/
def operandBytes : Instr → List Byte
  | .hlt => []
  | .ldi reg imm => [reg, imm]
  | .mul a b => [a, b]
  | .add a b => [a, b]
  | .prn reg => [reg]
  | .push reg => [reg]
  | .pop reg => [reg]

theorem encode_eq_cons (i : Instr) : encode P i = P.opcode i.mnemonic :: operandBytes i := by
  cases i <;> rfl

theorem length_operandBytes (i : Instr) : (operandBytes i).length = i.mnemonic.operandCount := by
  cases i <;> rfl

theorem operandCount_le_two (m : Mnemonic) : m.operandCount ≤ 2 := by
  cases m <;> decide

/-- Settles O9: the opcode byte decodes to the instruction's own mnemonic, and the operand bytes that its count
asks for are the next ones. -/
theorem decodeInvertsEncode : Obligations.DecodeInvertsEncode := by
  intro P hwf i rest
  rw [encode_eq_cons, List.cons_append]
  simp only [decode, decodeOpcode_opcode hwf]
  cases i <;> rfl

/-- What a decode that succeeds went through: the opcode's class, then each operand byte the class counts. -/
theorem decode_cons_eq_ok {b : Byte} {tail rest : List Byte} {i : Instr}
    (h : decode P (b :: tail) = .ok (i, rest)) :
    ∃ c op1 op2, decodeOpcode P b = some c ∧ operandFrom c.operandCount 1 tail = .ok op1 ∧
      operandFrom c.operandCount 2 tail = .ok op2 ∧ i = assemble c.mnemonic op1 op2 ∧
      rest = tail.drop c.operandCount := by
  simp only [decode] at h
  split at h
  · cases h
  · split at h
    · cases h
    · split at h
      · cases h
      · cases h
        exact ⟨_, _, _, ‹_›, ‹_›, ‹_›, rfl, rfl⟩

theorem operandFrom_eq_ok {n k : Nat} {tail : List Byte} {v : Byte} (hk : k ≤ n)
    (h : operandFrom n k tail = .ok v) : tail[k - 1]? = some v := by
  rw [operandFrom, if_pos hk] at h
  split at h
  · cases h; assumption
  · cases h

/-- The operand bytes that the decoder assembles are the next bytes of the string, none skipped. -/
theorem operandBytes_assemble {m : Mnemonic} {tail : List Byte} {op1 op2 : Byte}
    (h1 : operandFrom m.operandCount 1 tail = .ok op1) (h2 : operandFrom m.operandCount 2 tail = .ok op2) :
    operandBytes (assemble m op1 op2) = tail.take m.operandCount := by
  have hop1 : 1 ≤ m.operandCount → tail[0]? = some op1 := fun hk => operandFrom_eq_ok hk h1
  have hop2 : 2 ≤ m.operandCount → tail[1]? = some op2 := fun hk => operandFrom_eq_ok hk h2
  cases m <;> simp_all [Mnemonic.operandCount, assemble, operandBytes, List.take_add_one]

/-- A string that decodes under an accepted assignment is the opcode, the operand bytes and the rest. -/
theorem decode_cons_eq_append (hwf : P.wf = true) {b : Byte} {tail rest : List Byte} {i : Instr}
    (h : decode P (b :: tail) = .ok (i, rest)) :
    b = P.opcode i.mnemonic ∧ tail = operandBytes i ++ rest := by
  obtain ⟨c, op1, op2, hc, h1, h2, rfl, rfl⟩ := decode_cons_eq_ok h
  obtain ⟨hb, hn, -⟩ := decodeOpcode_some hc
  rw [← hb, operandCountOf_opcode hwf] at hn
  rw [hn] at h1 h2 ⊢
  rw [operandBytes_assemble h1 h2, List.take_append_drop, assemble_mnemonic]
  exact ⟨hb.symm, rfl⟩

/-- Settles O10: a string that decodes is not empty, and `decode_cons_eq_append` takes it apart. -/
theorem encodeInvertsDecode : Obligations.EncodeInvertsDecode := by
  intro P hwf bytes rest i h
  cases bytes with
  | nil => cases h
  | cons b tail =>
    obtain ⟨rfl, rfl⟩ := decode_cons_eq_append hwf h
    rw [encode_eq_cons, List.cons_append]

/-- Settles O11: what stands between the opcode and the rest are the operand bytes, and the opcode's top two bits
are their number. -/
theorem lengthComesFromTopTwoBits : Obligations.LengthComesFromTopTwoBits := by
  intro P hwf b tail rest i h
  obtain ⟨rfl, rfl⟩ := decode_cons_eq_append hwf h
  have hle := operandCount_le_two i.mnemonic
  rw [← operandCountOf_eq, operandCountOf_opcode hwf, ← length_operandBytes]
  refine ⟨length_operandBytes i ▸ hle, List.drop_left.symm, ?_⟩
  rw [List.length_append]
  omega

/-- R79's two conditions as statements over all mnemonics. -/
theorem wf_iff_forall :
    P.wf = true ↔
      (∀ m, (P.opcode m).toNat / 64 = m.operandCount) ∧ ∀ m n, P.opcode m = P.opcode n → m = n := by
  constructor
  · intro hwf
    exact ⟨fun m => (operandCountOf_eq _).symm.trans (operandCountOf_opcode hwf m),
      fun _ _ => opcode_injective hwf⟩
  · rintro ⟨hcount, hinj⟩
    refine P.wf_iff.2 ⟨?_, ?_⟩
    · exact List.all_eq_true.2 fun m _ => beq_iff_eq.2 (hcount m)
    · exact decide_eq_true (List.Nodup.map hinj (by decide))

/-- Settles O13: the machine is built exactly under `Params.wf`, which is R79's two conditions. -/
theorem badAssignmentsAreRejected : Obligations.BadAssignmentsAreRejected := by
  intro P
  rw [← wf_iff_forall, Machine.machineOf]
  split <;> simp_all

/-- Settles O14: the decoder run on each of the words. -/
theorem tableWordsDecodeAsWrittenOut : Obligations.TableWordsDecodeAsWrittenOut :=
  ⟨rfl, rfl, rfl, rfl, rfl, rfl, rfl, rfl⟩

end Sys2Proof.Proofs
end

section
/-! PROOFS. The ends of a cycle and of a step, and what each leaves unchanged (R105, R108, R109, R207). -/

namespace Sys2Proof.Proofs

open Sys2Proof.Machine

variable {P : Params} {s t u : State} {i : Instr}

/-- What an execute rule may do to the data part of the state: each of register file, memory, sp and output stays,
or changes in the one way R22, R51, R27 and R125 allow, under the instructions they name. -/
structure DataEffect (P : Params) (i : Instr) (s t : State) : Prop where
  /-- Only the first operand's register is set, by an instruction that writes one. -/
  registers : t.x = s.x ∨ i.mnemonic.writesReg = true ∧
    ∃ (q v : Byte) (h : q.toNat < 8), i.regOperands.head? = some q ∧ t.x = s.x.set q.toNat v
  /-- Only PUSH stores, inside memory and right below the top. -/
  memory : t.mem = s.mem ∨ i.mnemonic = .push ∧ 0 < s.sp ∧ s.sp ≤ P.memSize ∧
    ∃ v, t.mem = s.mem.write (s.sp - 1) v
  /-- Only PUSH and POP move sp. -/
  stack : t.sp = s.sp ∨ (i.mnemonic = .push ∧ t.sp + 1 = s.sp) ∨
    (i.mnemonic = .pop ∧ s.sp < P.memSize ∧ t.sp = s.sp + 1)
  /-- Only PRN adds to the output, one byte. -/
  output : t.out = s.out ∨ i.mnemonic = .prn ∧ ∃ v, t.out = s.out ++ [v]

/-- The effect is a statement about four fields of each state, so states that agree on them share it. -/
theorem DataEffect.congr {s' t' : State} (h : DataEffect P i s t)
    (hs : s'.x = s.x ∧ s'.mem = s.mem ∧ s'.sp = s.sp ∧ s'.out = s.out)
    (ht : t'.x = t.x ∧ t'.mem = t.mem ∧ t'.sp = t.sp ∧ t'.out = t.out) : DataEffect P i s' t' := by
  obtain ⟨hsx, hsm, hss, hso⟩ := hs
  obtain ⟨htx, htm, hts, hto⟩ := ht
  obtain ⟨hx, hm, hsp, hout⟩ := h
  constructor
  · rwa [htx, hsx]
  · rwa [htm, hsm, hss]
  · rwa [hts, hss]
  · rwa [hto, hso]

/-- Each execute rule that completes has only the effects of its instruction. -/
theorem executeRule_dataEffect (h : executeRule P i s = .ok u) : DataEffect P i s u := by
  cases i with
  | hlt =>
    cases h
    exact ⟨.inl rfl, .inl rfl, .inl rfl, .inl rfl⟩
  | ldi reg imm =>
    obtain ⟨hr, rfl⟩ := ldiRule_eq_ok.1 h
    exact ⟨.inr ⟨rfl, reg, _, hr, rfl, rfl⟩, .inl rfl, .inl rfl, .inl rfl⟩
  | prn reg =>
    obtain ⟨hr, rfl⟩ := prnRule_eq_ok.1 h
    exact ⟨.inl rfl, .inl rfl, .inl rfl, .inr ⟨rfl, _, rfl⟩⟩
  | mul a b =>
    obtain ⟨ha, hb, rfl⟩ := aluRule_eq_ok.1 h
    exact ⟨.inr ⟨rfl, a, _, ha, rfl, rfl⟩, .inl rfl, .inl rfl, .inl rfl⟩
  | add a b =>
    obtain ⟨ha, hb, rfl⟩ := aluRule_eq_ok.1 h
    exact ⟨.inr ⟨rfl, a, _, ha, rfl, rfl⟩, .inl rfl, .inl rfl, .inl rfl⟩
  | push reg =>
    obtain ⟨hr, hpos, hle, rfl⟩ := pushRule_eq_ok.1 h
    exact ⟨.inl rfl, .inr ⟨rfl, hpos, hle, _, rfl⟩, .inr (.inl ⟨rfl, Nat.sub_add_cancel hpos⟩), .inl rfl⟩
  | pop reg =>
    obtain ⟨hr, hlt, rfl⟩ := popRule_eq_ok.1 h
    exact ⟨.inr ⟨rfl, reg, _, hr, rfl, rfl⟩, .inl rfl, .inr (.inr ⟨rfl, hlt, rfl⟩), .inl rfl⟩

/-- A cycle that completes has the data effect of its instruction: the latch and the advance touch no data. -/
theorem advance_dataEffect {b : Byte} (h : executeRule P i (s.latchIr b) = .ok u) :
    DataEffect P i s u.advance :=
  (executeRule_dataEffect h).congr ⟨rfl, rfl, rfl, rfl⟩
    ⟨State.advance_x u, State.advance_mem u, State.advance_sp u, State.advance_out u⟩

theorem enterFault_dataEffect (r : Raise) (ir : Option Byte) : DataEffect P i s (s.enterFault r ir) :=
  ⟨.inl rfl, .inl rfl, .inl rfl, .inl rfl⟩

/-- What an instruction's meaning answers: the rule's state advanced, or the fault entry. -/
theorem exec_eq_next (h : exec i s = .next t) :
    (∃ u, executeRule Config.params i (s.latchIr (Config.params.opcode i.mnemonic)) = .ok u ∧
      t = u.advance) ∨
    (∃ r, executeRule Config.params i (s.latchIr (Config.params.opcode i.mnemonic)) = .error r ∧
      t = s.enterFault r (some (Config.params.opcode i.mnemonic))) := by
  rw [exec_eq_cycle] at h
  obtain ⟨u, hu, hn⟩ | ⟨r, hr, hn⟩ := cycle_cases (P := Config.params) (s := s) (m := i.mnemonic)
    (rule := executeRule Config.params i)
  all_goals cases h.symm.trans hn
  · exact .inl ⟨u, hu, rfl⟩
  · exact .inr ⟨r, hr, rfl⟩

/-- What a step from Running answers: the fetch's fault, the rule's fault, or the rule's state advanced. -/
theorem stepWith_eq_next (hrun : s.fsm = .running) (h : stepWith P s = .next t) :
    (∃ r ir, s.fetch P = .raised r ir ∧ t = s.enterFault r ir) ∨
    ∃ i, s.fetch P = .instr i ∧
      ((∃ r, executeRule P i (s.latchIr (P.opcode i.mnemonic)) = .error r ∧
          t = s.enterFault r (some (P.opcode i.mnemonic))) ∨
        ∃ u, executeRule P i (s.latchIr (P.opcode i.mnemonic)) = .ok u ∧ t = u.advance) := by
  obtain ⟨r, ir, hf, hn⟩ | ⟨i, hf, ⟨r, hr, hn⟩ | ⟨u, hu, hn⟩⟩ := stepWith_cases (P := P) hrun
  all_goals cases h.symm.trans hn
  · exact .inl ⟨r, ir, hf, rfl⟩
  · exact .inr ⟨i, hf, .inl ⟨r, hr, rfl⟩⟩
  · exact .inr ⟨i, hf, .inr ⟨u, hu, rfl⟩⟩

/-- What an instruction's cycle does to ir, the FSM and the fault record: it completes, or it faults. -/
theorem exec_control (h : exec i s = .next t) :
    (t.ir = s.ir ∨ t.ir = Config.params.opcode i.mnemonic) ∧
      (t.fault = s.fault ∧ (t.fsm = s.fsm ∨ i = .hlt) ∨ t.fsm = .faulted) := by
  obtain ⟨u, hu, rfl⟩ | ⟨r, -, rfl⟩ := exec_eq_next h
  · obtain ⟨-, hir, hfault, hfsm⟩ := executeRule_control hu
    rw [State.advance_ir, State.advance_fault, State.advance_fsm, hir, hfault, hfsm]
    refine ⟨.inr rfl, .inl ⟨rfl, ?_⟩⟩
    by_cases hi : i = .hlt
    · exact .inr hi
    · exact .inl (if_neg hi)
  · exact ⟨.inl rfl, .inr rfl⟩

/-- Completing or faulting, an instruction has only its own data effects. -/
theorem exec_dataEffect (h : exec i s = .next t) : DataEffect Config.params i s t := by
  obtain ⟨u, hu, rfl⟩ | ⟨r, -, rfl⟩ := exec_eq_next h
  · exact advance_dataEffect hu
  · exact enterFault_dataEffect r _

/-- A step keeps all data, or it runs, in Running, the instruction whose opcode stands at pc. -/
theorem stepWith_dataEffect (h : stepWith P s = .next t) :
    (t.x = s.x ∧ t.mem = s.mem ∧ t.sp = s.sp ∧ t.out = s.out) ∨
      s.fsm = .running ∧ ∃ i : Instr, s.memRead P s.pc = .ok (P.opcode i.mnemonic) ∧ DataEffect P i s t := by
  by_cases hrun : s.fsm = .running
  · obtain ⟨r, ir, -, rfl⟩ | ⟨i, hf, ⟨r, -, rfl⟩ | ⟨u, hu, rfl⟩⟩ := stepWith_eq_next hrun h
    · exact .inl ⟨rfl, rfl, rfl, rfl⟩
    · exact .inl ⟨rfl, rfl, rfl, rfl⟩
    · obtain ⟨hlt, hop, -⟩ := State.fetch_instr hf
      exact .inr ⟨hrun, i, State.memRead_nat_eq_ok.2 ⟨hlt, hop.symm⟩, advance_dataEffect hu⟩
  · cases h.symm.trans (stepWith_stopped hrun)
    exact .inl ⟨rfl, rfl, rfl, rfl⟩

/-! What the data effect says of the reads -/

theorem DataEffect.readReg_eq (h : DataEffect P i s t) {q : Byte}
    (hq : i.mnemonic.writesReg = true → i.regOperands.head? ≠ some q) : t.readReg q = s.readReg q := by
  obtain hx | ⟨hw, r, v, hr, hhead, hx⟩ := h.registers
  · exact State.readReg_congr hx q
  · refine State.readReg_set_other hr hx ?_
    rintro rfl
    exact hq hw hhead

theorem DataEffect.memRead_eq (h : DataEffect P i s t) {a : Int}
    (ha : i.mnemonic = .push → a ≠ s.pushAddress) : t.memRead P a = s.memRead P a := by
  obtain hm | ⟨hi, hpos, hle, v, hm⟩ := h.memory
  · exact State.memRead_congr hm a
  · have htop : InMemory P ((s.sp - 1 : Nat) : Int) := inMemory_nat.2 (by omega)
    have haddr : s.pushAddress = ((s.sp - 1 : Nat) : Int) := by rw [State.pushAddress]; omega
    exact State.memRead_write_other htop hm (haddr ▸ ha hi)

end Sys2Proof.Proofs
end

section
/-! PROOFS. The frames of the instructions, and which instruction may change what (R22, R27, R32, R50). -/

namespace Sys2Proof.Proofs

open Sys2Proof.Machine

variable {P : Params} {s t : State} {i : Instr}

theorem DataEffect.readReg_other (h : DataEffect P i s t) {dst q : Byte}
    (hdst : i.regOperands.head? = some dst) (hq : q ≠ dst) : t.readReg q = s.readReg q :=
  h.readReg_eq fun _ he => hq (Option.some.inj (he.symm.trans hdst))

theorem DataEffect.readReg_of_not_writer (h : DataEffect P i s t) (hw : i.mnemonic.writesReg = false)
    (q : Byte) : t.readReg q = s.readReg q :=
  h.readReg_eq fun he => by simp [hw] at he

theorem DataEffect.memRead_of_ne_push (h : DataEffect P i s t) (hi : i.mnemonic ≠ .push) (a : Int) :
    t.memRead P a = s.memRead P a :=
  h.memRead_eq fun he => absurd he hi

theorem DataEffect.sp_of_not_stack (h : DataEffect P i s t) (hpush : i.mnemonic ≠ .push)
    (hpop : i.mnemonic ≠ .pop) : t.sp = s.sp := by
  obtain hsp | ⟨hi, -⟩ | ⟨hi, -⟩ := h.stack
  · exact hsp
  · exact absurd hi hpush
  · exact absurd hi hpop

theorem DataEffect.out_of_ne_prn (h : DataEffect P i s t) (hi : i.mnemonic ≠ .prn) : t.out = s.out := by
  obtain hout | ⟨hprn, -⟩ := h.output
  · exact hout
  · exact absurd hprn hi

theorem exec_control_of_ne_hlt (hi : i ≠ .hlt) (h : exec i s = .next t) :
    (t.ir = s.ir ∨ t.ir = Config.params.opcode i.mnemonic) ∧
      (t.fsm = s.fsm ∧ t.fault = s.fault ∨ t.fsm = .faulted) := by
  obtain ⟨hir, ⟨hfault, hfsm⟩ | hfsm⟩ := exec_control h
  · exact ⟨hir, .inl ⟨hfsm.resolve_right hi, hfault⟩⟩
  · exact ⟨hir, .inr hfsm⟩

/-- Settles O38: none of the three is PUSH, POP, PRN or HLT, and the destination is their first operand. -/
theorem registerWritersFrame : Obligations.RegisterWritersFrame := by
  intro i dst b s t hi h
  have hdst : i.regOperands.head? = some dst := by rcases hi with rfl | rfl | rfl <;> rfl
  have hm : i.mnemonic = .ldi ∨ i.mnemonic = .mul ∨ i.mnemonic = .add := by
    rcases hi with rfl | rfl | rfl <;> simp [Instr.mnemonic]
  have hhlt : i ≠ .hlt := by rintro rfl; simp at hi
  have hd := exec_dataEffect h
  obtain ⟨hir, hfsm⟩ := exec_control_of_ne_hlt hhlt h
  refine ⟨fun q => hd.readReg_other hdst, hd.memRead_of_ne_push ?_, hd.sp_of_not_stack ?_ ?_,
    hd.out_of_ne_prn ?_, hir, hfsm⟩
  all_goals rcases hm with hm | hm | hm <;> simp [hm]

/-- Settles O39: the data effect and the control of an instruction, at POP. -/
theorem popFrame : Obligations.PopFrame := by
  intro dst s t h
  have hd := exec_dataEffect h
  obtain ⟨hir, hfsm⟩ := exec_control_of_ne_hlt (by simp) h
  refine ⟨fun q => hd.readReg_other rfl, hd.memRead_of_ne_push nofun, ?_, hd.out_of_ne_prn nofun, hir, hfsm⟩
  obtain hsp | ⟨⟨⟩, -⟩ | ⟨-, -, hsp⟩ := hd.stack
  · exact .inl hsp
  · exact .inr hsp

/-- Settles O40: the data effect and the control of an instruction, at PUSH. -/
theorem pushFrame : Obligations.PushFrame := by
  intro reg s t h
  have hd := exec_dataEffect h
  obtain ⟨hir, hfsm⟩ := exec_control_of_ne_hlt (by simp) h
  refine ⟨hd.readReg_of_not_writer rfl, fun a ha => hd.memRead_eq fun _ => ha, ?_, hd.out_of_ne_prn nofun,
    hir, hfsm⟩
  obtain hsp | ⟨-, hsp⟩ | ⟨⟨⟩, -⟩ := hd.stack
  · exact .inl hsp
  · exact .inr (by rw [State.pushAddress]; omega)

/-- Settles O41: neither PRN nor HLT writes a register or touches the stack, and the output can grow under PRN
only. -/
theorem prnAndHltFrame : Obligations.PrnAndHltFrame := by
  intro i reg s t hi h
  have hm : i.mnemonic = .prn ∨ i.mnemonic = .hlt := by rcases hi with rfl | rfl <;> simp [Instr.mnemonic]
  have hd := exec_dataEffect h
  obtain ⟨hir, hctl⟩ := exec_control h
  refine ⟨hd.readReg_of_not_writer ?_, hd.memRead_of_ne_push ?_, hd.sp_of_not_stack ?_ ?_, ?_, hir, ?_, ?_⟩
  · rcases hm with hm | hm <;> rw [hm] <;> rfl
  · rcases hm with hm | hm <;> simp [hm]
  · rcases hm with hm | hm <;> simp [hm]
  · rcases hm with hm | hm <;> simp [hm]
  · obtain hout | ⟨hprn, v, hout⟩ := hd.output
    · exact ⟨[], by simpa using hout, fun _ => rfl⟩
    · exact ⟨[v], hout, fun hhlt => by simp [hhlt, Instr.mnemonic] at hprn⟩
  · exact hctl.imp_left And.left
  · obtain ⟨-, hfsm | hhlt⟩ | hfsm := hctl
    · exact .inl hfsm
    · exact .inr (.inr hhlt)
    · exact .inr (.inl hfsm)

/-- Settles O42: under any other instruction, and at any other index, `DataEffect.readReg_eq` keeps the read. -/
theorem registersChangeOnlyUnderWriters : Obligations.RegistersChangeOnlyUnderWriters := by
  intro i s t q h hne
  by_contra hw
  exact hne ((exec_dataEffect h).readReg_eq fun hwr hhead => hw ⟨hwr, hhead⟩)

/-- Settles O43: under any other instruction, and at any other address, `DataEffect.memRead_eq` keeps the read. -/
theorem memoryChangesOnlyUnderPush : Obligations.MemoryChangesOnlyUnderPush := by
  intro s t a h hne
  rw [step_eq_stepWith] at h
  obtain ⟨-, hmem, -⟩ | ⟨hrun, i, hread, hd⟩ := stepWith_dataEffect h
  · exact absurd (State.memRead_congr hmem a) hne
  · have hpush : i.mnemonic = .push := by
      by_contra hi
      exact hne (hd.memRead_of_ne_push hi a)
    have haddr : a = s.pushAddress := by
      by_contra ha
      exact hne (hd.memRead_eq fun _ => ha)
    exact ⟨hrun, hpush ▸ hread, haddr⟩

/-- Settles O44: the data effect on sp, read off for the instruction whose opcode stands at pc. -/
theorem spChangesOnlyUnderPushAndPop : Obligations.SpChangesOnlyUnderPushAndPop := by
  intro s t h hne
  rw [step_eq_stepWith] at h
  obtain ⟨-, -, hsp, -⟩ | ⟨-, i, hread, hd⟩ := stepWith_dataEffect h
  · exact absurd hsp hne
  · obtain hsp | ⟨hi, hsp⟩ | ⟨hi, -, hsp⟩ := hd.stack
    · exact absurd hsp hne
    · exact .inl ⟨hi ▸ hread, hsp⟩
    · exact .inr ⟨hi ▸ hread, hsp⟩

/-- Settles O45: the data effect on the output, read off for the instruction whose opcode stands at pc. -/
theorem outputOnlyGrowsUnderPrn : Obligations.OutputOnlyGrowsUnderPrn := by
  intro s t h
  rw [step_eq_stepWith] at h
  obtain ⟨-, -, -, hout⟩ | ⟨-, i, hread, hd⟩ := stepWith_dataEffect h
  · exact .inl hout
  · obtain hout | ⟨hi, hout⟩ := hd.output
    · exact .inl hout
    · exact .inr ⟨hout, hi ▸ hread⟩

end Sys2Proof.Proofs
end

section
/-! PROOFS. The invariant: it holds at every launch state and every step keeps it (R24, R26, R31, R35, R206). -/

namespace Sys2Proof.Proofs

open Sys2Proof.Machine

variable {P : Params} {s t u : State} {i : Instr}

/-! States without a fault record -/

/-- Outside Faulted the invariant is its four bounds, for there is no record to speak of. -/
theorem inv_of_not_faulted (hwf : s.mem.wf = true) (hin : ∀ c ∈ s.mem, c.1 < P.memSize)
    (hpc : s.pc ≤ P.memSize) (hsp : s.sp ≤ max P.memSize P.stackBase) (hfsm : s.fsm ≠ .faulted)
    (hfault : s.fault = none) : s.Inv P where
  memCanonical := hwf
  memInside := hin
  pcBound := hpc
  spBound := hsp
  recordIffFaulted := by simp [hfault, hfsm]
  recordPc := by simp [hfault]
  recordCause := by simp [hfault]
  recordNoIr := by simp [hfault]

theorem fault_eq_none_of_inv (hinv : s.Inv P) (hfsm : s.fsm ≠ .faulted) : s.fault = none := by
  rw [← Option.not_isSome_iff_eq_none, hinv.recordIffFaulted]
  exact hfsm

/-! Fault entry -/

theorem raise_cause_cases (r : Raise) :
    r.cause = .unknownOpcode ∨ r.cause = .outOfBounds ∨ r.cause = .invalidRegister := by
  cases r <;> simp [Raise.cause]

/-- Fault entry keeps the invariant if a record without an opcode is the one of a failed opcode fetch. -/
theorem enterFault_inv (hinv : s.Inv P) {r : Raise} {ir : Option Byte}
    (hir : ir = none → r = .outOfBounds (P.memSize : Int)) : (s.enterFault r ir).Inv P where
  memCanonical := hinv.memCanonical
  memInside := hinv.memInside
  pcBound := hinv.pcBound
  spBound := hinv.spBound
  recordIffFaulted := by simp
  recordPc := by rintro _ ⟨⟩; rfl
  recordCause := by rintro _ ⟨⟩; exact raise_cause_cases r
  recordNoIr := by
    rintro _ ⟨⟩ hnone
    rw [hir hnone]
    exact ⟨rfl, rfl⟩

/-- A fetch that raises without an opcode byte failed at the first address past memory. -/
theorem fetch_raised_none (hpc : s.pc ≤ P.memSize) {r : Raise} (h : s.fetch P = .raised r none) :
    r = .outOfBounds (P.memSize : Int) := by
  obtain ⟨hge, hr, -⟩ | ⟨-, hir, -⟩ := State.fetch_raised h
  · rw [hr, le_antisymm hpc hge]
  · cases hir

/-! Completion -/

theorem DataEffect.memCanonical (h : DataEffect P i s t) (hwf : s.mem.wf = true) : t.mem.wf = true := by
  obtain hm | ⟨-, -, -, v, hm⟩ := h.memory
  · rwa [hm]
  · exact hm ▸ Memory.write_wf _ v hwf

theorem DataEffect.memInside (h : DataEffect P i s t) (hin : ∀ c ∈ s.mem, c.1 < P.memSize) :
    ∀ c ∈ t.mem, c.1 < P.memSize := by
  obtain hm | ⟨-, hpos, hle, v, hm⟩ := h.memory
  · rwa [hm]
  · exact hm ▸ Memory.write_inside (by omega) hin

/-- PUSH lowers sp, and POP raises it to N at most. -/
theorem DataEffect.spBound (h : DataEffect P i s t) (hsp : s.sp ≤ max P.memSize P.stackBase) :
    t.sp ≤ max P.memSize P.stackBase := by
  obtain he | ⟨-, he⟩ | ⟨-, hlt, he⟩ := h.stack <;> omega

/-- Under an accepted assignment the bytes of a fetched instruction end at N at the latest, since its opcode's top
two bits count exactly the operand bytes that were fetched (R79). -/
theorem fetch_instr_fits (hwf : P.wf = true) (h : s.fetch P = .instr i) :
    s.pc + 1 + i.mnemonic.operandCount ≤ P.memSize := by
  obtain ⟨hpc, hop, op1, op2, h1, h2, -⟩ := State.fetch_instr h
  rw [← hop, operandCountOf_opcode hwf] at h1 h2
  have h1 := State.fetchOperand_eq_ok h1
  have h2 := State.fetchOperand_eq_ok h2
  have := operandCount_le_two i.mnemonic
  omega

/-- A cycle that completes moves pc past the fetched bytes, or leaves it at HLT; either way it stays within N. -/
theorem advance_pc_le (hwf : P.wf = true) (hf : s.fetch P = .instr i)
    (hu : executeRule P i (s.latchIr (P.opcode i.mnemonic)) = .ok u) : u.advance.pc ≤ P.memSize := by
  obtain ⟨hpc, hir, -, hfsm⟩ := executeRule_control hu
  have hfits := fetch_instr_fits hwf hf
  by_cases hrun : u.fsm = .running
  · rw [State.advance_pc_running u hrun, hpc, hir, State.latchIr_ir, operandCountOf_opcode hwf]
    exact hfits
  · rw [State.advance_pc_stopped u hrun, hpc, State.latchIr_pc]
    omega

/-- A completed cycle ends in Running or Halted and keeps the fault field. -/
theorem advance_not_faulted (hrun : s.fsm = .running) {b : Byte}
    (hu : executeRule P i (s.latchIr b) = .ok u) : u.advance.Safe ∧ u.advance.fault = s.fault := by
  obtain ⟨-, -, hfault, hfsm⟩ := executeRule_control hu
  rw [State.Safe, State.advance_fsm, State.advance_fault, hfault, hfsm, State.latchIr_fsm,
    State.latchIr_fault, hrun]
  refine ⟨?_, rfl⟩
  split <;> simp

theorem advance_inv (hwf : P.wf = true) (hinv : s.Inv P) (hrun : s.fsm = .running)
    (hf : s.fetch P = .instr i) (hu : executeRule P i (s.latchIr (P.opcode i.mnemonic)) = .ok u) :
    u.advance.Inv P := by
  have hd := advance_dataEffect hu
  obtain ⟨hsafe, hfault⟩ := advance_not_faulted hrun hu
  rw [fault_eq_none_of_inv hinv (by simp [hrun])] at hfault
  exact inv_of_not_faulted (hd.memCanonical hinv.memCanonical) (hd.memInside hinv.memInside)
    (advance_pc_le hwf hf hu) (hd.spBound hinv.spBound) hsafe hfault

/-- Every step of the machine at an accepted assignment keeps the invariant. -/
theorem stepWith_inv (hwf : P.wf = true) (hinv : s.Inv P) (h : stepWith P s = .next t) : t.Inv P := by
  by_cases hrun : s.fsm = .running
  · obtain ⟨r, ir, hf, rfl⟩ | ⟨i, hf, ⟨r, -, rfl⟩ | ⟨u, hu, rfl⟩⟩ := stepWith_eq_next hrun h
    · exact enterFault_inv hinv fun hir => fetch_raised_none hinv.pcBound (hir ▸ hf)
    · exact enterFault_inv hinv nofun
    · exact advance_inv hwf hinv hrun hf hu
  · cases h.symm.trans (stepWith_stopped hrun)
    exact hinv

/-- Settles O8: `stepWith_inv` at the default parameters. -/
theorem everyStepKeepsInvariant : Obligations.EveryStepKeepsInvariant := by
  intro s t hinv h
  exact stepWith_inv params_wf hinv (step_eq_stepWith s ▸ h)

/-! Reset and launch -/

/-- The reset state with any canonical memory inside its bounds. -/
theorem resetWith_inv {m : Memory} (hwf : m.wf = true) (hin : ∀ c ∈ m, c.1 < P.memSize) :
    State.Inv P { State.resetWith P with mem := m } :=
  inv_of_not_faulted hwf hin (Nat.zero_le _) (le_max_right _ _) nofun rfl

/-- Settles O6: reset's memory is empty. -/
theorem invariantHoldsAtReset : Obligations.InvariantHoldsAtReset :=
  resetWith_inv rfl nofun

/-- Settles O7: the image is loaded into reset's empty memory, from address 0 on and within N. -/
theorem invariantHoldsAtEveryLaunch : Obligations.InvariantHoldsAtEveryLaunch := by
  intro P image s h
  unfold launchWith at h
  split at h
  · cases h
    exact resetWith_inv (Memory.load_wf image 0 rfl) (Memory.load_inside image 0 (by omega) nofun)
  · cases h

end Sys2Proof.Proofs
end

section
/-! PROOFS. Steps and runs: totality, terminal states, atomic faults and the bound on a run (R14, R107 to R114). -/

namespace Sys2Proof.Proofs

open Sys2Proof.Machine

variable {P : Params} {s t : State}

theorem exists_stepWith (P : Params) (s : State) : ∃ t, stepWith P s = .next t := by
  by_cases hrun : s.fsm = .running
  · obtain ⟨r, ir, -, hn⟩ | ⟨i, -, ⟨r, -, hn⟩ | ⟨u, -, hn⟩⟩ := stepWith_cases (P := P) hrun
    all_goals exact ⟨_, hn⟩
  · exact ⟨s, stepWith_stopped hrun⟩

/-- Settles O17: `exists_stepWith` at the default parameters. -/
theorem everyStepAnswersNext : Obligations.EveryStepAnswersNext := by
  intro s
  rw [step_eq_stepWith]
  exact exists_stepWith _ s

/-- Settles O22: a cycle that ends in Faulted entered the fault, in its fetch or in its rule, and only a fetch at N
or beyond leaves no opcode. -/
theorem faultingStepIsAtomic : Obligations.FaultingStepIsAtomic := by
  intro s t hrun h hfsm
  rw [step_eq_stepWith] at h
  obtain ⟨r, ir, hf, rfl⟩ | ⟨i, hf, ⟨r, -, rfl⟩ | ⟨u, hu, rfl⟩⟩ := stepWith_eq_next hrun h
  · refine ⟨_, rfl, rfl, ?_⟩
    obtain ⟨hge, -, rfl⟩ | ⟨hlt, rfl, -⟩ := State.fetch_raised hf
    · simpa using hge
    · simpa using hlt
  · obtain ⟨hlt, -⟩ := State.fetch_instr hf
    exact ⟨_, rfl, rfl, by simpa using hlt⟩
  · obtain ⟨hsafe, -⟩ := advance_not_faulted hrun hu
    exact absurd hfsm hsafe

/-! Runs -/

theorem runWith_succ_of_stepWith {k : Nat} (h : stepWith P s = .next t) :
    runWith P (k + 1) s = runWith P k t := by
  rw [runWith, h]

theorem run_succ_of_step {M : Host.Core} {k : Nat} {s t : M.State} (h : M.step s = .next t) :
    M.run (k + 1) s = M.run k t := by
  simp only [Host.Core.run, h]

theorem runWith_stopped (hstop : s.fsm ≠ .running) : ∀ k, runWith P k s = .next s
  | 0 => rfl
  | k + 1 => (runWith_succ_of_stepWith (stepWith_stopped hstop)).trans (runWith_stopped hstop k)

/-- Settles O24: by induction over the number of steps, since each step of the core is the parametric one. -/
theorem coreRunsAreDefaultParametricRuns : Obligations.CoreRunsAreDefaultParametricRuns := by
  intro k
  induction k with
  | zero => exact fun s => rfl
  | succ k ih =>
    intro s
    obtain ⟨t, ht⟩ := exists_stepWith Config.params s
    have hcore : core.step s = .next t := (step_eq_stepWith s).trans ht
    exact (run_succ_of_step hcore).trans ((ih t).trans (runWith_succ_of_stepWith ht).symm)

/-- Settles O20: the core's run is the parametric one, which a stopped state stays in. -/
theorem terminalStatesStay : Obligations.TerminalStatesStay := by
  intro k s hstop
  rw [coreRunsAreDefaultParametricRuns]
  exact runWith_stopped hstop k

/-- A step from Running is the last one, or pc stood in memory and has moved on (R111). -/
theorem stepWith_progress (hrun : s.fsm = .running) :
    ∃ t, stepWith P s = .next t ∧ (t.fsm ≠ .running ∨ s.pc < P.memSize ∧ s.pc < t.pc) := by
  obtain ⟨r, ir, -, hn⟩ | ⟨i, hf, ⟨r, -, hn⟩ | ⟨u, hu, hn⟩⟩ := stepWith_cases (P := P) hrun
  · exact ⟨_, hn, .inl (by simp)⟩
  · exact ⟨_, hn, .inl (by simp)⟩
  · refine ⟨_, hn, ?_⟩
    obtain ⟨hlt, -⟩ := State.fetch_instr hf
    obtain ⟨hpc, -⟩ := executeRule_control hu
    by_cases hurun : u.fsm = .running
    · rw [State.advance_pc_running u hurun, hpc, State.latchIr_pc]
      exact .inr ⟨hlt, by omega⟩
    · exact .inl (by rwa [State.advance_fsm])

theorem ends_of_not_running (hstop : s.fsm ≠ .running) : s.NormalEnd ∨ s.AbnormalEnd := by
  rw [State.NormalEnd, State.AbnormalEnd]
  cases hfsm : s.fsm <;> simp_all

/-- Settles O23: each step that is not the last one lessens N - pc, and a stopped state stays. -/
theorem everyRunEndsWithinBound : Obligations.EveryRunEndsWithinBound := by
  intro P k
  induction k with
  | zero => exact fun s hk => absurd hk (by omega)
  | succ k ih =>
    intro s hk
    by_cases hrun : s.fsm = .running
    · obtain ⟨t, hstep, hstop | ⟨hin, hmoved⟩⟩ := stepWith_progress (P := P) hrun
      · rw [runWith_succ_of_stepWith hstep]
        exact ⟨t, runWith_stopped hstop k, ends_of_not_running hstop⟩
      · rw [runWith_succ_of_stepWith hstep]
        exact ih t (by omega)
    · exact ⟨s, runWith_stopped hrun _, ends_of_not_running hrun⟩

end Sys2Proof.Proofs
end

section
/-! PROOFS. The register file, and PRN, HLT, PUSH and POP one at a time (R21, R123, R150, R153, R160). -/

namespace Sys2Proof.Proofs

open Sys2Proof.Machine

variable {s : State}

/-- Settles O26: the index is below 8 or not, and the laws of the two primitives answer each case. -/
theorem registerFileHasEightSeparateRegisters : Obligations.RegisterFileHasEightSeparateRegisters := by
  intro s i v
  constructor
  · intro hi
    exact ⟨⟨_, State.readReg_of_lt hi⟩, _, State.writeReg_of_lt hi, State.readReg_set_same hi rfl,
      fun _ hj => State.readReg_set_other hi rfl hj, rfl⟩
  · intro hi
    exact ⟨State.readReg_of_ge hi, State.writeReg_of_ge hi⟩

/-- Settles O28: PRN's rule emits the byte, and the advance from Running adds 1 + 1 to pc. -/
theorem prnAppendsRegisterToOutput : Obligations.PrnAppendsRegisterToOutput := by
  intro r v s hr hrun
  obtain ⟨hreg, rfl⟩ := State.readReg_eq_ok.1 hr
  have hu := prnRule_eq_ok (s := s.latchIr (Config.params.opcode .prn)).2 ⟨hreg, rfl⟩
  have hcount : operandCountOf (Config.params.opcode .prn) = 1 := operandCountOf_opcode params_wf .prn
  rw [exec_eq_cycle, executeRule_prn, Instr.mnemonic, cycle_of_ok hu, State.advance]
  simp only [State.emit_fsm, State.latchIr_fsm, hrun, State.emit_ir, State.latchIr_ir, hcount]
  rfl

/-- Settles O32: HLT's rule halts, and the advance then leaves pc where it is. -/
theorem hltHaltsInPlace : Obligations.HltHaltsInPlace := by
  intro s
  exact (exec_eq_cycle .hlt s).trans (cycle_of_ok hltRule_eq)

/-- Settles O30: what `exec_push_of_readReg` says of memory, read at sp - 1 and elsewhere. -/
theorem pushStoresBelowTop : Obligations.PushStoresBelowTop := by
  intro r v s hwf hr hrun hpos hle
  obtain ⟨t, hexec, hmem, hx, hsp, hout, hpc, hir, hfsm, hfault⟩ := exec_push_of_readReg hr hrun hpos hle
  have htop : InMemory Config.params (t.sp : Int) := inMemory_nat.2 (by omega)
  have hmem : t.mem = s.mem.write (t.sp : Int).toNat v := by rw [hmem, hsp, Int.toNat_natCast]
  refine ⟨t, hexec, by omega, ?_, ?_, hx, hpc, hir, hout, hfsm, hfault⟩
  · exact memRead_write_same hwf htop hmem
  · exact fun c hc => State.memRead_write_other htop hmem (by omega)

/-- Settles O31: what `exec_pop_of_sp_lt` says of the register file, read at POP's register and elsewhere. -/
theorem popLoadsTop : Obligations.PopLoadsTop := by
  intro r v s hr hread hrun
  obtain ⟨hlt, rfl⟩ := State.memRead_nat_eq_ok.1 hread
  obtain ⟨t, hexec, hx, hmem, hsp, hout, hpc, hir, hfsm, hfault⟩ := exec_pop_of_sp_lt hr hrun hlt
  refine ⟨t, hexec, ?_, ?_, hsp, hmem, hpc, hir, hout, hfsm, hfault⟩
  · exact State.readReg_set_same hr hx
  · exact fun q hq => State.readReg_set_other hr hx hq

end Sys2Proof.Proofs
end

section
/-! PROOFS. Fetch: the code bytes at pc, and the instruction a step runs (R61, R78, R101 to R103, R110). -/

namespace Sys2Proof.Proofs

open Sys2Proof.Machine

variable {P : Params} {s t : State} {i : Instr}

/-! The code bytes -/

/-- The bytes that `codeAt` filters out are those past the end, so the rest is an initial segment. -/
theorem codeAt_eq_map (a : Nat) :
    s.codeAt P a = (List.range (min 3 (P.memSize - a))).map fun k => s.mem.read (a + k) := by
  have hbound : ∀ k, decide (a + k < P.memSize) = decide (k < P.memSize - a) := fun k => by
    rw [decide_eq_decide]; omega
  simp only [State.codeAt, hbound]
  obtain hn | hn | hn | hn :
      P.memSize - a = 0 ∨ P.memSize - a = 1 ∨ P.memSize - a = 2 ∨ 3 ≤ P.memSize - a := by
    omega
  · rw [hn]; rfl
  · rw [hn]; rfl
  · rw [hn]; rfl
  · rw [min_eq_left hn, List.filter_eq_self.2]
    exact fun k hk => decide_eq_true ((List.mem_range.1 hk).trans_le hn)

theorem codeAt_getElem?_eq_some {a k : Nat} {v : Byte} :
    (s.codeAt P a)[k]? = some v ↔ k < 3 ∧ a + k < P.memSize ∧ s.mem.read (a + k) = v := by
  rw [codeAt_eq_map, List.getElem?_map, Option.map_eq_some_iff]
  constructor
  · rintro ⟨j, hj, rfl⟩
    obtain ⟨hlt, rfl⟩ := List.getElem?_eq_some_iff.1 hj
    rw [List.length_range] at hlt
    rw [List.getElem_range]
    exact ⟨by omega, by omega, rfl⟩
  · rintro ⟨hk, hin, rfl⟩
    exact ⟨k, List.getElem?_range (by omega), rfl⟩

/-- Settles O34: the byte stored at sp - 1 = pc + 2 is the first code byte at the next pc. -/
theorem nextFetchSeesPushedByte : Obligations.NextFetchSeesPushedByte := by
  intro r v s hwf hr hrun hsp hle
  obtain ⟨t, hexec, hmem, -, -, -, hpc, -⟩ := exec_push_of_readReg hr hrun (by omega) hle
  refine ⟨t, hexec, hpc, ?_⟩
  rw [List.head?_eq_getElem?, codeAt_getElem?_eq_some]
  have hnext : t.pc + 0 = s.sp - 1 := by omega
  refine ⟨by omega, by omega, ?_⟩
  rw [hnext, hmem, Memory.read_write_same _ _ hwf]

/-! Fetch from bytes that decode -/

theorem fetch_of_operands {b op1 op2 : Byte} {c : OpClass} (hread : s.memRead P s.pc = .ok b)
    (hc : decodeOpcode P b = some c) (h1 : s.fetchOperand P c.operandCount 1 = .ok op1)
    (h2 : s.fetchOperand P c.operandCount 2 = .ok op2) :
    s.fetch P = .instr (assemble c.mnemonic op1 op2) := by
  simp only [State.fetch, hread, hc, h1, h2]

/-- Operand byte k of the code bytes is the byte that the operand fetch reads at pc + k. -/
theorem fetchOperand_of_operandFrom {b v : Byte} {tail : List Byte} {n k : Nat}
    (hcode : s.codeAt P s.pc = b :: tail) (hk : 0 < k) (h : operandFrom n k tail = .ok v) :
    s.fetchOperand P n k = .ok v := by
  by_cases hkn : k ≤ n
  · have hget : (s.codeAt P s.pc)[k]? = some v := by
      rw [hcode, List.getElem?_cons, if_neg hk.ne']
      exact operandFrom_eq_ok hkn h
    obtain ⟨-, hin, rfl⟩ := codeAt_getElem?_eq_some.1 hget
    exact State.fetchOperand_of_in hkn hin
  · rw [operandFrom, if_neg hkn] at h
    cases h
    exact State.fetchOperand_unread (not_le.1 hkn)

theorem fetch_of_decode {rest : List Byte} (h : decode P (s.codeAt P s.pc) = .ok (i, rest)) :
    s.fetch P = .instr i := by
  cases hcode : s.codeAt P s.pc with
  | nil => rw [hcode] at h; cases h
  | cons b tail =>
    rw [hcode] at h
    obtain ⟨c, op1, op2, hc, h1, h2, rfl, -⟩ := decode_cons_eq_ok h
    have hget : (s.codeAt P s.pc)[0]? = some b := by rw [hcode]; rfl
    obtain ⟨-, hin, hb⟩ := codeAt_getElem?_eq_some.1 hget
    exact fetch_of_operands (State.memRead_nat_eq_ok.2 ⟨hin, hb⟩) hc
      (fetchOperand_of_operandFrom hcode (by omega) h1) (fetchOperand_of_operandFrom hcode (by omega) h2)

theorem stepWith_of_fetch_raised {r : Raise} {ir : Option Byte} (hrun : s.fsm = .running)
    (hf : s.fetch P = .raised r ir) : stepWith P s = .next (s.enterFault r ir) := by
  simp only [stepWith, stepThrough, hrun, hf]

theorem stepWith_of_fetch_instr (hrun : s.fsm = .running) (hf : s.fetch P = .instr i) :
    stepWith P s = cycle P i.mnemonic (executeRule P i) s := by
  simp only [stepWith, stepThrough, hrun, hf, execWith_eq_cycle]

theorem step_of_fetch (hrun : s.fsm = .running) (hf : s.fetch Config.params = .instr i) :
    step s = exec i s := by
  rw [step_eq_stepWith, stepWith_of_fetch_instr hrun hf, exec_eq_cycle]

/-- Settles O15: `fetch_of_decode` at the default parameters. -/
theorem stepRunsDecodedInstruction : Obligations.StepRunsDecodedInstruction := by
  intro s i rest hrun h
  exact step_of_fetch hrun (fetch_of_decode h)

/-- A word placed at pc, with room for its three bytes, is the code there. -/
theorem codeAt_withFetchWord {nbits w : Nat} (hwf : s.mem.wf = true)
    (hroom : s.pc + 3 ≤ Config.params.memSize) :
    (s.withFetchWord nbits w).codeAt Config.params s.pc = tableBytes nbits w := by
  have hlen : (tableBytes nbits w).length = 3 := rfl
  have hmem : (s.withFetchWord nbits w).mem = s.mem.load s.pc (tableBytes nbits w) := by
    rw [State.withFetchWord_mem, List.take_of_length_le (by omega)]
  rw [codeAt_eq_map, hmem, min_eq_left (by omega)]
  refine List.ext_getElem (by simp [hlen]) fun k hk hk' => ?_
  rw [List.getElem_map, List.getElem_range, Memory.read_load _ _ hwf hk']

theorem decode_of_decodeTableWord {nbits w : Nat} (h : decodeTableWord nbits w = some i) :
    ∃ rest, decode Config.params (tableBytes nbits w) = .ok (i, rest) := by
  unfold decodeTableWord at h
  split at h
  · cases h
    exact ⟨_, ‹_›⟩
  · cases h

/-- Settles O16: the placed word is the code at pc, so the step runs what it decodes to. -/
theorem placedWordRunsNext : Obligations.PlacedWordRunsNext := by
  intro s nbits w i hwf hroom h
  obtain ⟨rest, hdec⟩ := decode_of_decodeTableWord h
  exact stepRunsDecodedInstruction _ i rest rfl ((codeAt_withFetchWord hwf hroom).symm ▸ hdec)

/-! Unknown opcodes and HLT -/

theorem fetch_of_unknown {b : Byte} (hread : s.memRead P s.pc = .ok b) (h : ∀ m, P.opcode m ≠ b) :
    s.fetch P = .raised (.unknownOpcode b) (some b) := by
  simp only [State.fetch, hread, decodeOpcode_eq_none.2 h]

/-- Settles O12: the fetch raises on the opcode's class, before it looks at an operand byte. -/
theorem unknownOpcodeFaultsBeforeOperands : Obligations.UnknownOpcodeFaultsBeforeOperands := by
  intro P s b hrun hread hunknown
  exact ⟨decodeOpcode_eq_none.2 hunknown, stepWith_of_fetch_raised hrun (fetch_of_unknown hread hunknown)⟩

/-- HLT has no operand, so its opcode byte alone is fetched as it. -/
theorem fetch_hlt (hwf : P.wf = true) (hread : s.memRead P s.pc = .ok (P.opcode .hlt)) :
    s.fetch P = .instr .hlt :=
  fetch_of_operands hread (decodeOpcode_opcode hwf .hlt)
    (State.fetchOperand_unread (by decide)) (State.fetchOperand_unread (by decide))

/-- Only HLT's rule ends in Halted. -/
theorem opcode_hlt_of_halted (hrun : s.fsm = .running) (h : stepWith P s = .next t)
    (ht : t.fsm = .halted) : s.memRead P s.pc = .ok (P.opcode .hlt) := by
  obtain ⟨i, u, hf, hu, rfl⟩ := exists_rule_of_stepWith_completed hrun h (by simp [ht])
  obtain ⟨-, -, -, hfsm⟩ := executeRule_control hu
  rw [State.advance_fsm, hfsm, State.latchIr_fsm, hrun] at ht
  have hi : i = .hlt := by
    by_contra hne
    rw [if_neg hne] at ht
    cases ht
  obtain ⟨hlt, hop, -⟩ := State.fetch_instr hf
  exact State.memRead_nat_eq_ok.2 ⟨hlt, by rw [← hop, hi]; rfl⟩

/-- Settles O19: a step that halts read HLT's byte, and HLT's byte is fetched as HLT, which halts in place. -/
theorem stepHaltsExactlyAtHlt : Obligations.StepHaltsExactlyAtHlt := by
  intro s t hrun h
  have hhalt : s.memRead Config.params s.pc = .ok (Config.params.opcode .hlt) →
      t = { s with fsm := .halted, ir := 0b00000001#8 } := fun hread => by
    rw [step_of_fetch hrun (fetch_hlt params_wf hread), hltHaltsInPlace] at h
    cases h
    rfl
  have hread : t.fsm = .halted → s.memRead Config.params s.pc = .ok (Config.params.opcode .hlt) :=
    opcode_hlt_of_halted hrun (step_eq_stepWith s ▸ h)
  exact ⟨⟨hread, fun hb => by rw [hhalt hb]⟩, fun ht => hhalt (hread ht)⟩

end Sys2Proof.Proofs
end

section
/-! PROOFS. Where a cycle raises, in the order of R205: its fetch (items 1 to 4), then its rule (items 5 to 7). -/

namespace Sys2Proof.Proofs

open Sys2Proof.Machine

variable {P : Params} {s t : State} {i : Instr} {r : Raise}

/-! The execute half -/

/-- R205 item 7: what the stack's bounds raise. -/
def stackRaise (P : Params) (i : Instr) (s : State) : Option Raise :=
  if i.mnemonic = .push ∧ (s.sp = 0 ∨ P.memSize < s.sp) then some (.outOfBounds ((s.sp : Int) - 1))
  else if i.mnemonic = .pop ∧ P.memSize ≤ s.sp then some (.outOfBounds s.sp)
  else none

/-- R205 items 5 to 7: what the execute half raises, the first bad register operand before the stack's bounds.
`executeRule_eq_error` ties it to the rules. -/
def executeRaise (P : Params) (i : Instr) (s : State) : Option Raise :=
  (i.regOperands.find? fun q => decide (8 ≤ q.toNat)).elim (stackRaise P i s) fun q =>
    some (.invalidRegister q)

theorem executeRaise_of_badReg {q : Byte}
    (h : i.regOperands.find? (fun q => decide (8 ≤ q.toNat)) = some q) :
    executeRaise P i s = some (.invalidRegister q) := by
  rw [executeRaise, h, Option.elim_some]

theorem executeRaise_of_goodRegs (h : i.regOperands.find? (fun q => decide (8 ≤ q.toNat)) = none) :
    executeRaise P i s = stackRaise P i s := by
  rw [executeRaise, h, Option.elim_none]

theorem executeRaise_of_one_badReg {q : Byte} (hi : i.regOperands = [q]) (hq : 8 ≤ q.toNat) :
    executeRaise P i s = some (.invalidRegister q) :=
  executeRaise_of_badReg (by simp [hi, hq])

theorem executeRaise_of_one_goodReg {q : Byte} (hi : i.regOperands = [q]) (hq : ¬ 8 ≤ q.toNat) :
    executeRaise P i s = stackRaise P i s :=
  executeRaise_of_goodRegs (by simp only [hi, hq, List.find?_cons, List.find?_nil, decide_false])

theorem stackRaise_eq_none (hpush : i.mnemonic ≠ .push) (hpop : i.mnemonic ≠ .pop) :
    stackRaise P i s = none := by
  rw [stackRaise, if_neg fun h => hpush h.1, if_neg fun h => hpop h.1]

theorem stackRaise_push {q : Byte} :
    stackRaise P (.push q) s =
      if s.sp = 0 ∨ P.memSize < s.sp then some (.outOfBounds ((s.sp : Int) - 1)) else none := by
  simp [stackRaise, Instr.mnemonic]

theorem stackRaise_pop {q : Byte} :
    stackRaise P (.pop q) s = if P.memSize ≤ s.sp then some (.outOfBounds s.sp) else none := by
  simp [stackRaise, Instr.mnemonic]

/-- The ALU's rule raises on its first bad register, whichever its operation. -/
theorem aluRule_eq_error {op : AluOp} {a b : Byte} (hi : i.regOperands = [a, b])
    (hm : i.mnemonic = .mul ∨ i.mnemonic = .add) :
    aluRule op a b s = .error r ↔ executeRaise P i s = some r := by
  by_cases ha : 8 ≤ a.toNat
  · rw [aluRule_of_badReg1 ha, executeRaise_of_badReg (q := a) (by simp [hi, ha])]
    simp
  · by_cases hb : 8 ≤ b.toNat
    · rw [aluRule_of_badReg2 (by omega) hb, executeRaise_of_badReg (q := b) (by simp [hi, hb]; omega)]
      simp
    · rw [aluRule_eq_ok.2 ⟨by omega, by omega, rfl⟩, executeRaise_of_goodRegs (by simp [hi]; omega),
        stackRaise_eq_none]
      · simp
      · rcases hm with hm | hm <;> simp [hm]
      · rcases hm with hm | hm <;> simp [hm]

/-- An execute rule raises exactly what `executeRaise` says. -/
theorem executeRule_eq_error : executeRule P i s = .error r ↔ executeRaise P i s = some r := by
  cases i with
  | hlt =>
    rw [executeRaise_of_goodRegs rfl, stackRaise_eq_none (i := .hlt) nofun nofun, executeRule_hlt, hltRule_eq]
    simp
  | ldi reg imm =>
    by_cases h : 8 ≤ reg.toNat
    · rw [executeRaise_of_one_badReg rfl h, executeRule_ldi, ldiRule_eq_error.2 ⟨h, rfl⟩]
      simp
    · rw [executeRaise_of_one_goodReg rfl h, stackRaise_eq_none (i := .ldi _ _) nofun nofun, executeRule_ldi,
        ldiRule_eq_ok.2 ⟨by omega, rfl⟩]
      simp
  | prn reg =>
    by_cases h : 8 ≤ reg.toNat
    · rw [executeRaise_of_one_badReg rfl h, executeRule_prn, prnRule_of_badReg h]
      simp
    · rw [executeRaise_of_one_goodReg rfl h, stackRaise_eq_none (i := .prn _) nofun nofun, executeRule_prn,
        prnRule_eq_ok.2 ⟨by omega, rfl⟩]
      simp
  | mul a b => exact aluRule_eq_error rfl (.inl rfl)
  | add a b => exact aluRule_eq_error rfl (.inr rfl)
  | push reg =>
    by_cases h : 8 ≤ reg.toNat
    · rw [executeRaise_of_one_badReg rfl h, executeRule_push, pushRule_of_badReg h]
      simp
    · rw [executeRaise_of_one_goodReg rfl h, executeRule_push, stackRaise_push]
      split
      · rw [pushRule_of_outOfBounds (by omega) ‹_›]
        simp
      · rw [pushRule_eq_ok.2 ⟨by omega, by omega, by omega, rfl⟩]
        simp
  | pop reg =>
    by_cases h : 8 ≤ reg.toNat
    · rw [executeRaise_of_one_badReg rfl h, executeRule_pop, popRule_of_badReg h]
      simp
    · rw [executeRaise_of_one_goodReg rfl h, executeRule_pop, stackRaise_pop]
      split
      · rw [popRule_of_outOfBounds (by omega) ‹_›]
        simp
      · rw [popRule_eq_ok.2 ⟨by omega, by omega, rfl⟩]
        simp

/-- The latched opcode byte has no part in what an execute half raises. -/
theorem executeRule_latchIr_eq_error {b : Byte} :
    executeRule P i (s.latchIr b) = .error r ↔ executeRaise P i s = some r :=
  executeRule_eq_error (s := s.latchIr b)

theorem executeRaise_of_ok {b : Byte} {u : State} (h : executeRule P i (s.latchIr b) = .ok u) :
    executeRaise P i s = none := by
  cases he : executeRaise P i s with
  | none => rfl
  | some r => cases h.symm.trans (executeRule_latchIr_eq_error.2 he)

/-- An instruction whose rule raises enters the fault, with its own opcode in the record. -/
theorem exec_of_executeRaise (h : executeRaise Config.params i s = some r) :
    exec i s = .next (s.enterFault r (some (Config.params.opcode i.mnemonic))) :=
  (exec_eq_cycle i s).trans (cycle_of_error (executeRule_latchIr_eq_error.2 h))

/-- Settles O35: the first bad register operand is what the execute half raises. -/
theorem invalidRegisterFaults : Obligations.InvalidRegisterFaults := by
  intro i s q h
  exact exec_of_executeRaise (executeRaise_of_badReg h)

/-- Settles O36: with a register that exists, the stack's bounds are what the execute half raises. -/
theorem stackOutOfBoundsFaults : Obligations.StackOutOfBoundsFaults := by
  intro q s hq
  constructor
  · intro hsp
    refine exec_of_executeRaise (i := .push q) (r := .outOfBounds ((s.sp : Int) - 1)) ?_
    rw [executeRaise_of_one_goodReg rfl (by omega), stackRaise_push, if_pos hsp]
  · intro hsp
    refine exec_of_executeRaise (i := .pop q) (r := .outOfBounds s.sp) ?_
    rw [executeRaise_of_one_goodReg rfl (by omega), stackRaise_pop, if_pos hsp]

theorem stackRaise_eq_some (h : stackRaise P i s = some r) :
    (i.mnemonic = .push ∨ i.mnemonic = .pop) ∧ r.cause = .outOfBounds := by
  unfold stackRaise at h
  split at h
  · cases h
    exact ⟨.inl (And.left ‹_›), rfl⟩
  · split at h
    · cases h
      exact ⟨.inr (And.left ‹_›), rfl⟩
    · cases h

/-- An instruction that ends in Faulted from Running raised in its execute half. -/
theorem exists_executeRaise_of_faulted (hrun : s.fsm = .running) (h : exec i s = .next t)
    (ht : t.fsm = .faulted) : ∃ r, executeRaise Config.params i s = some r ∧
      t = s.enterFault r (some (Config.params.opcode i.mnemonic)) := by
  obtain ⟨u, hu, rfl⟩ | ⟨r, hr, rfl⟩ := exec_eq_next h
  · obtain ⟨hsafe, -⟩ := advance_not_faulted hrun hu
    exact absurd ht hsafe
  · exact ⟨r, executeRule_latchIr_eq_error.1 hr, rfl⟩

/-- Settles O37: with no bad register operand, only the stack's bounds are left to raise. -/
theorem onlyStackBoundsFaultWithValidRegisters : Obligations.OnlyStackBoundsFaultWithValidRegisters := by
  intro i s t hregs hrun h ht
  have hgood : i.regOperands.find? (fun q => decide (8 ≤ q.toNat)) = none := by
    simpa [Instr.regsInRange] using hregs
  obtain ⟨r, hr, rfl⟩ := exists_executeRaise_of_faulted hrun h ht
  rw [executeRaise_of_goodRegs hgood] at hr
  obtain ⟨hm, hcause⟩ := stackRaise_eq_some hr
  exact ⟨hm, _, rfl, hcause⟩

end Sys2Proof.Proofs
end

section
/-! PROOFS. The check order of R205 over the bytes at pc is the order in which a cycle raises (R200 to R207). -/

namespace Sys2Proof.Proofs

open Sys2Proof.Machine

variable {P : Params} {s t : State} {i : Instr} {r : Raise}

/-- The record that fault entry writes (R206). -/
def faultRecord (s : State) (r : Raise) (ir : Option Byte) : FaultRecord :=
  { cause := r.cause, pc := s.pc, ir := ir, info := r.info }

theorem enterFault_eq (ir : Option Byte) :
    s.enterFault r ir = { s with fsm := .faulted, fault := some (faultRecord s r ir) } := rfl

/-! Fetch, from the bytes at pc -/

theorem fetch_of_pc_out (h : P.memSize ≤ s.pc) : s.fetch P = .raised (.outOfBounds s.pc) none := by
  simp only [State.fetch, State.memRead_nat_eq_error.2 ⟨h, rfl⟩]

theorem fetch_of_operand1_out {b : Byte} {c : OpClass} (hread : s.memRead P s.pc = .ok b)
    (hc : decodeOpcode P b = some c) (hn : 1 ≤ c.operandCount) (h : P.memSize ≤ s.pc + 1) :
    s.fetch P = .raised (.outOfBounds ((s.pc + 1 : Nat) : Int)) (some b) := by
  simp only [State.fetch, hread, hc, State.fetchOperand_of_out hn h]

theorem fetch_of_operand2_out {b op1 : Byte} {c : OpClass} (hread : s.memRead P s.pc = .ok b)
    (hc : decodeOpcode P b = some c) (h1 : s.fetchOperand P c.operandCount 1 = .ok op1)
    (hn : 2 ≤ c.operandCount) (h : P.memSize ≤ s.pc + 2) :
    s.fetch P = .raised (.outOfBounds ((s.pc + 2 : Nat) : Int)) (some b) := by
  simp only [State.fetch, hread, hc, h1, State.fetchOperand_of_out hn h]

/-- An operand fetch that cannot fail: the operand is in memory, or the instruction does not have it. -/
theorem exists_fetchOperand {n k : Nat} (h : k ≤ n → s.pc + k < P.memSize) :
    ∃ v, s.fetchOperand P n k = .ok v ∧ (k ≤ n → v = s.mem.read (s.pc + k)) := by
  by_cases hk : k ≤ n
  · exact ⟨_, State.fetchOperand_of_in hk (h hk), fun _ => rfl⟩
  · exact ⟨0, State.fetchOperand_unread (not_le.1 hk), fun hn => absurd hn hk⟩

/-! The check order, for an opcode byte in memory -/

theorem find_badReg_assemble_op1 {m : Mnemonic} {op1 : Byte} (op2 : Byte) (hm : m ≠ .hlt)
    (h : 8 ≤ op1.toNat) :
    (assemble m op1 op2).regOperands.find? (fun q => decide (8 ≤ q.toNat)) = some op1 := by
  cases m with
  | hlt => contradiction
  | ldi | prn | mul | add | push | pop => simp [assemble, Instr.regOperands, h]

theorem find_badReg_assemble_op2 {m : Mnemonic} {op1 op2 : Byte} (hm : m = .mul ∨ m = .add)
    (h1 : ¬ 8 ≤ op1.toNat) (h2 : 8 ≤ op2.toNat) :
    (assemble m op1 op2).regOperands.find? (fun q => decide (8 ≤ q.toNat)) = some op2 := by
  rcases hm with rfl | rfl <;>
    simp only [assemble, Instr.regOperands, List.find?_cons, h1, h2, decide_true, decide_false]

theorem find_badReg_assemble_none {m : Mnemonic} {op1 op2 : Byte} (h1 : ¬ (m ≠ .hlt ∧ 8 ≤ op1.toNat))
    (h2 : ¬ ((m = .mul ∨ m = .add) ∧ 8 ≤ op2.toNat)) :
    (assemble m op1 op2).regOperands.find? (fun q => decide (8 ≤ q.toNat)) = none := by
  cases m with
  | hlt => rfl
  | ldi | prn | push | pop => simpa [assemble, Instr.regOperands] using h1
  | mul | add => simp_all [assemble, Instr.regOperands]

/-- R205 items 5 to 7 as a chain over the operand bytes. -/
theorem map_executeRaise_assemble (m : Mnemonic) (op1 op2 : Byte) (ir : Option Byte) :
    (executeRaise P (assemble m op1 op2) s).map (fun r => faultRecord s r ir) =
      if m ≠ .hlt ∧ 8 ≤ op1.toNat then some (faultRecord s (.invalidRegister op1) ir)
      else if (m = .mul ∨ m = .add) ∧ 8 ≤ op2.toNat then some (faultRecord s (.invalidRegister op2) ir)
      else if m = .push ∧ (s.sp = 0 ∨ P.memSize < s.sp) then
        some (faultRecord s (.outOfBounds ((s.sp : Int) - 1)) ir)
      else if m = .pop ∧ P.memSize ≤ s.sp then some (faultRecord s (.outOfBounds s.sp) ir)
      else none := by
  by_cases h1 : m ≠ .hlt ∧ 8 ≤ op1.toNat
  · rw [if_pos h1, executeRaise_of_badReg (find_badReg_assemble_op1 op2 h1.1 h1.2), Option.map_some]
  · rw [if_neg h1]
    by_cases h2 : (m = .mul ∨ m = .add) ∧ 8 ≤ op2.toNat
    · have hop1 : ¬ 8 ≤ op1.toNat := fun h => h1 ⟨by rintro rfl; simp at h2, h⟩
      rw [if_pos h2, executeRaise_of_badReg (find_badReg_assemble_op2 h2.1 hop1 h2.2), Option.map_some]
    · rw [if_neg h2, executeRaise_of_goodRegs (find_badReg_assemble_none h1 h2), stackRaise,
        assemble_mnemonic]
      simp only [apply_ite (Option.map _), Option.map_some, Option.map_none]

/-- R205 items 3 to 7: past the first two checks only the opcode's mnemonic counts. -/
theorem firstFault_of_opcode (hwf : P.wf = true) {m : Mnemonic} (hpc : s.pc < P.memSize)
    (hb : s.mem.read s.pc = P.opcode m) :
    s.firstFault P =
      if 1 ≤ m.operandCount ∧ P.memSize ≤ s.pc + 1 then
        some (faultRecord s (.outOfBounds ((s.pc + 1 : Nat) : Int)) (some (P.opcode m)))
      else if m.operandCount = 2 ∧ P.memSize ≤ s.pc + 2 then
        some (faultRecord s (.outOfBounds ((s.pc + 2 : Nat) : Int)) (some (P.opcode m)))
      else (executeRaise P (assemble m (s.mem.read (s.pc + 1)) (s.mem.read (s.pc + 2))) s).map
        fun r => faultRecord s r (some (P.opcode m)) := by
  have hcount : (P.opcode m).toNat / 64 = m.operandCount :=
    (operandCountOf_eq _).symm.trans (operandCountOf_opcode hwf m)
  have hop : ∀ n, P.opcode m = P.opcode n ↔ m = n := fun n => ⟨opcode_injective hwf, fun h => h ▸ rfl⟩
  have hknown : ¬ P.opcode m ∉ Mnemonic.all.map P.opcode :=
    not_not.2 (List.mem_map_of_mem m.mem_all)
  simp only [State.firstFault, hb, if_neg (not_le.2 hpc), if_neg hknown, hcount, ne_eq, hop,
    map_executeRaise_assemble]
  rfl

theorem firstFault_of_pc_out (h : P.memSize ≤ s.pc) :
    s.firstFault P = some (faultRecord s (.outOfBounds s.pc) none) :=
  if_pos h

theorem firstFault_of_unknown (hpc : s.pc < P.memSize) (h : ∀ m, P.opcode m ≠ s.mem.read s.pc) :
    s.firstFault P =
      some (faultRecord s (.unknownOpcode (s.mem.read s.pc)) (some (s.mem.read s.pc))) := by
  have hunknown : s.mem.read s.pc ∉ Mnemonic.all.map P.opcode := fun hmem => by
    obtain ⟨m, -, hm⟩ := List.mem_map.1 hmem
    exact h m hm
  exact (if_neg (not_le.2 hpc)).trans (if_pos hunknown)

/-! The check order and the cycle -/

/-- An operand that the instruction does not have is ignored. -/
theorem assemble_congr {m : Mnemonic} {a b a' b' : Byte} (ha : 1 ≤ m.operandCount → a = a')
    (hb : 2 ≤ m.operandCount → b = b') : assemble m a b = assemble m a' b' := by
  cases m with
  | hlt => rfl
  | prn | push | pop => rw [ha (by decide)]; rfl
  | ldi | mul | add => rw [ha (by decide), hb (by decide)]

/-- With all operand bytes in memory the fetch assembles the bytes at pc. -/
theorem fetch_of_operands_in (hwf : P.wf = true) {m : Mnemonic} (hpc : s.pc < P.memSize)
    (hb : s.mem.read s.pc = P.opcode m) (h1 : 1 ≤ m.operandCount → s.pc + 1 < P.memSize)
    (h2 : 2 ≤ m.operandCount → s.pc + 2 < P.memSize) :
    s.fetch P = .instr (assemble m (s.mem.read (s.pc + 1)) (s.mem.read (s.pc + 2))) := by
  obtain ⟨op1, hf1, hop1⟩ := exists_fetchOperand h1
  obtain ⟨op2, hf2, hop2⟩ := exists_fetchOperand h2
  rw [fetch_of_operands (State.memRead_nat_eq_ok.2 ⟨hpc, hb⟩) (decodeOpcode_opcode hwf m) hf1 hf2,
    assemble_congr hop1 hop2]

/-- The check order gives the record of the fetch's raise, or that of the fetched instruction's rule, if any. -/
theorem firstFault_cases (hwf : P.wf = true) (s : State) :
    (∃ r ir, s.fetch P = .raised r ir ∧ s.firstFault P = some (faultRecord s r ir)) ∨
    ∃ i, s.fetch P = .instr i ∧
      s.firstFault P = (executeRaise P i s).map fun r => faultRecord s r (some (P.opcode i.mnemonic)) := by
  by_cases hpc : P.memSize ≤ s.pc
  · exact .inl ⟨_, _, fetch_of_pc_out hpc, firstFault_of_pc_out hpc⟩
  rw [not_le] at hpc
  have hread : s.memRead P s.pc = .ok (s.mem.read s.pc) := State.memRead_nat_eq_ok.2 ⟨hpc, rfl⟩
  by_cases hknown : ∀ m, P.opcode m ≠ s.mem.read s.pc
  · exact .inl ⟨_, _, fetch_of_unknown hread hknown, firstFault_of_unknown hpc hknown⟩
  obtain ⟨m, hm⟩ := not_forall_not.1 hknown
  rw [← hm] at hread
  have hchain := firstFault_of_opcode hwf hpc hm.symm
  have hclass := decodeOpcode_opcode hwf m
  by_cases h1 : 1 ≤ m.operandCount ∧ P.memSize ≤ s.pc + 1
  · exact .inl ⟨_, _, fetch_of_operand1_out hread hclass h1.1 h1.2, hchain.trans (if_pos h1)⟩
  rw [if_neg h1] at hchain
  have hin1 : 1 ≤ m.operandCount → s.pc + 1 < P.memSize := fun hn => not_le.1 fun hle => h1 ⟨hn, hle⟩
  by_cases h2 : m.operandCount = 2 ∧ P.memSize ≤ s.pc + 2
  · obtain ⟨op1, hop1, -⟩ := exists_fetchOperand hin1
    exact .inl ⟨_, _, fetch_of_operand2_out hread hclass hop1 h2.1.ge h2.2, hchain.trans (if_pos h2)⟩
  rw [if_neg h2] at hchain
  have hin2 : 2 ≤ m.operandCount → s.pc + 2 < P.memSize := fun hn =>
    not_le.1 fun hle => h2 ⟨le_antisymm (operandCount_le_two m) hn, hle⟩
  exact .inr ⟨_, fetch_of_operands_in hwf hpc hm.symm hin1 hin2, by rw [hchain, assemble_mnemonic]⟩

/-- Settles O21: `firstFault_cases` gives the record, and the cycle at `s` enters that fault or completes. -/
theorem faultsFollowTheCheckOrder : Obligations.FaultsFollowTheCheckOrder := by
  intro P hwf s hrun
  obtain ⟨r, ir, hf, hfirst⟩ | ⟨i, hf, hfirst⟩ := firstFault_cases hwf s
  · have hstep := stepWith_of_fetch_raised hrun hf
    rw [enterFault_eq] at hstep
    rw [hfirst]
    exact ⟨by rintro _ ⟨⟩; exact hstep, nofun⟩
  · have hstep := stepWith_of_fetch_instr hrun hf
    obtain ⟨u, hu, hn⟩ | ⟨r, hr, hn⟩ := cycle_cases (P := P) (s := s) (m := i.mnemonic)
      (rule := executeRule P i)
    · obtain ⟨hsafe, hfault⟩ := advance_not_faulted hrun hu
      rw [hfirst, executeRaise_of_ok hu]
      exact ⟨nofun, fun _ => ⟨_, hstep.trans hn, hsafe, hfault⟩⟩
    · rw [enterFault_eq] at hn
      rw [hfirst, executeRule_latchIr_eq_error.1 hr]
      exact ⟨by rintro _ ⟨⟩; exact hstep.trans hn, nofun⟩

end Sys2Proof.Proofs
end

section
/-! PROOFS. The Loader: lines, comments, blanks and binary literals (R208, R231, R234, R235). -/

namespace Sys2Proof.Proofs

open Sys2Proof.Machine

variable {P : Params}

/-! Lines -/

theorem splitLines_append_newline (rest : List Char) :
    ∀ {l : List Char}, '\n' ∉ l → splitLines (l ++ '\n' :: rest) = l :: splitLines rest
  | [], _ => if_pos rfl
  | c :: l, h => by
    obtain ⟨hc, hl⟩ := not_or.1 (mt List.mem_cons.2 h)
    rw [List.cons_append, splitLines, if_neg (Ne.symm hc), splitLines_append_newline rest hl]

/-- A text of newline-ended lines has those lines, and the empty one after the last newline. -/
theorem splitLines_flatMap {α : Type} {f : α → List Char} :
    ∀ {ls : List α}, (∀ l ∈ ls, '\n' ∉ f l) →
      splitLines (ls.flatMap fun l => f l ++ ['\n']) = ls.map f ++ [[]]
  | [], _ => rfl
  | l :: ls, h => by
    obtain ⟨hl, hls⟩ := List.forall_mem_cons.1 h
    rw [List.flatMap_cons, List.append_assoc, List.singleton_append, splitLines_append_newline _ hl,
      splitLines_flatMap hls, List.map_cons, List.cons_append]

/-- Lines that each parse give the bytes of those that hold one, in order. -/
theorem parseLines_map {α : Type} {f : α → List Char} {g : α → Option Byte} :
    ∀ {ls : List α}, (∀ l ∈ ls, parseLine (f l) = .ok (g l)) →
      parseLines (ls.map f ++ [[]]) = .ok (ls.filterMap g)
  | [], _ => rfl
  | l :: ls, h => by
    obtain ⟨hl, hls⟩ := List.forall_mem_cons.1 h
    simp only [List.map_cons, List.cons_append, parseLines, hl, parseLines_map hls]
    cases hg : g l <;> simp [hg]

/-- One line that fails makes the text fail, at this line or at an earlier one. -/
theorem exists_parseLines_error {line : List Char} {e : LoadError} (he : parseLine line = .error e) :
    ∀ {ls : List (List Char)}, line ∈ ls → ∃ e', parseLines ls = .error e'
  | l :: ls, hmem => by
    rw [parseLines]
    cases hl : parseLine l with
    | error e' => exact ⟨e', rfl⟩
    | ok b =>
      have hne : line ≠ l := by rintro rfl; simp [hl] at he
      obtain ⟨e', he'⟩ := exists_parseLines_error he ((List.mem_cons.1 hmem).resolve_left hne)
      exact ⟨e', by simp only [he']⟩

/-! Trimming -/

theorem mem_dropWhile_of_mem {α : Type} {p : α → Bool} {a : α} {l : List α} (ha : a ∈ l)
    (hp : p a = false) :
    a ∈ l.dropWhile p := by
  rw [← List.takeWhile_append_dropWhile (p := p) (l := l), List.mem_append] at ha
  refine ha.resolve_left fun h => ?_
  simp [List.mem_takeWhile_imp h] at hp

theorem mem_trim_of_mem {c : Char} {l : List Char} (hc : c ∈ l) (hblank : isBlank c = false) : c ∈ trim l :=
  List.mem_reverse.2 (mem_dropWhile_of_mem (List.mem_reverse.2 (mem_dropWhile_of_mem hc hblank)) hblank)

theorem dropWhile_eq_self_of_forall {α : Type} {p : α → Bool} {l : List α} (h : ∀ a ∈ l, p a = false) :
    l.dropWhile p = l :=
  List.dropWhile_eq_self_iff.2 fun hl => by simp [h _ (List.getElem_mem hl)]

/-- The blank after a literal is trimmed, and nothing of the literal. -/
theorem trim_append_blank {l : List Char} (h : ∀ c ∈ l, isBlank c = false) : trim (l ++ [' ']) = l := by
  cases l with
  | nil => rfl
  | cons c cs =>
    have hhead : ((c :: cs) ++ [' ']).dropWhile isBlank = (c :: cs) ++ [' '] := by
      rw [List.cons_append, List.dropWhile_cons_of_neg (by simp [h c])]
    have hblank : isBlank ' ' = true := rfl
    rw [trim, hhead, List.reverse_append, List.reverse_singleton, List.singleton_append,
      List.dropWhile_cons_of_pos hblank,
      dropWhile_eq_self_of_forall fun a ha => h a (List.mem_reverse.1 ha), List.reverse_reverse]

theorem stripComment_append_hash {l : List Char} (rest : List Char) (h : '#' ∉ l) :
    stripComment (l ++ '#' :: rest) = l := by
  have hall : ∀ c ∈ l, (c != '#') = true := fun c hc => bne_iff_ne.2 fun e => h (e ▸ hc)
  rw [stripComment, List.takeWhile_append_of_pos hall, List.takeWhile_cons_of_neg (by simp), List.append_nil]

/-! Literals -/

theorem digit_of_mem_byteDigits {b : Byte} {c : Char} (hc : c ∈ byteDigits b) : c = '0' ∨ c = '1' := by
  obtain ⟨k, -, rfl⟩ := List.mem_map.1 hc
  split
  · exact .inr rfl
  · exact .inl rfl

/-- The value of a binary digit is a bit of the byte. -/
theorem digit_eq_bit (b : Byte) (k : Nat) :
    (if (if b.getLsbD k then '1' else '0') = '1' then 1 else 0) = b.toNat / 2 ^ k % 2 := by
  rw [← BitVec.testBit_toNat, Nat.testBit_eq_decide_div_mod_eq]
  obtain h | h := Nat.mod_two_eq_zero_or_one (b.toNat / 2 ^ k) <;> simp [h]

/-- Reading the eight digits back, each step doubles and adds the next lower bit. -/
theorem binaryValue_byteDigits (b : Byte) : binaryValue (byteDigits b) = b.toNat := by
  have hb := b.isLt
  simp only [binaryValue, byteDigits, List.map_cons, List.map_nil, List.foldl_cons, List.foldl_nil,
    digit_eq_bit]
  omega

theorem parseLine_of_empty {line : List Char} (h : trim (stripComment line) = []) :
    parseLine line = .ok none := by
  rw [parseLine, h]

theorem parseLine_of_byteDigits {line : List Char} {b : Byte}
    (h : trim (stripComment line) = byteDigits b) : parseLine line = .ok (some b) := by
  have hvalue := binaryValue_byteDigits b
  have hdigits : (byteDigits b).all (fun d => d == '0' || d == '1') = true :=
    List.all_eq_true.2 fun c hc => by simpa using digit_of_mem_byteDigits hc
  unfold parseLine
  rw [h]
  split
  · rename_i hnil
    cases hnil
  · rename_i hcons
    rw [← hcons, if_pos hdigits, hvalue, if_pos (by omega), BitVec.ofNat_toNat, BitVec.setWidth_eq]

/-! The text -/

/-- One line of the text form: a byte as eight binary digits or nothing, then a comment. -/
def commentedLine (l : Option Byte × List Char) : List Char :=
  l.1.elim [] byteDigits ++ [' ', '#'] ++ l.2

theorem digit_of_mem_elim {o : Option Byte} {c : Char} (hc : c ∈ o.elim [] byteDigits) :
    c = '0' ∨ c = '1' := by
  cases o with
  | none => simp at hc
  | some b => exact digit_of_mem_byteDigits hc

theorem not_mem_elim_of_not_digit {o : Option Byte} {c : Char} (h0 : c ≠ '0') (h1 : c ≠ '1') :
    c ∉ o.elim [] byteDigits := fun hc => (digit_of_mem_elim hc).elim h0 h1

theorem newline_not_mem_commentedLine {l : Option Byte × List Char} (h : '\n' ∉ l.2) :
    '\n' ∉ commentedLine l := by
  have hdigits : '\n' ∉ l.1.elim [] byteDigits := not_mem_elim_of_not_digit (by decide) (by decide)
  simp [commentedLine, hdigits, h]

/-- The comment and the blank before it are dropped. -/
theorem trim_commentedLine (l : Option Byte × List Char) :
    trim (stripComment (commentedLine l)) = l.1.elim [] byteDigits := by
  have hhash : '#' ∉ l.1.elim [] byteDigits ++ [' '] := by
    have hdigits : '#' ∉ l.1.elim [] byteDigits := not_mem_elim_of_not_digit (by decide) (by decide)
    simp [hdigits]
  have hsplit : commentedLine l = (l.1.elim [] byteDigits ++ [' ']) ++ '#' :: l.2 := by
    simp [commentedLine]
  rw [hsplit, stripComment_append_hash _ hhash, trim_append_blank]
  intro c hc
  obtain rfl | rfl := digit_of_mem_elim hc <;> rfl

theorem parseLine_commentedLine (l : Option Byte × List Char) : parseLine (commentedLine l) = .ok l.1 := by
  have h := trim_commentedLine l
  obtain ⟨_ | b, comment⟩ := l
  · exact parseLine_of_empty h
  · exact parseLine_of_byteDigits h

/-- Settles O4: the text's lines are the given ones and a last empty one, and each parses to its byte. -/
theorem loaderReadsBytesAndDropsComments : Obligations.LoaderReadsBytesAndDropsComments := by
  intro P lines h
  have hsplit : splitLines (lines.flatMap fun l => commentedLine l ++ ['\n']) =
      lines.map commentedLine ++ [[]] :=
    splitLines_flatMap fun l hl => newline_not_mem_commentedLine (h l hl)
  have hparse : parseLines (lines.map commentedLine ++ [[]]) = .ok (lines.filterMap fun l => l.1) :=
    parseLines_map fun l _ => parseLine_commentedLine l
  change loadText P (some (lines.flatMap fun l => commentedLine l ++ ['\n'])) = _
  simp only [loadText, hsplit, hparse]

/-- A visible character other than 0 and 1 survives trimming and is no binary digit. -/
theorem exists_parseLine_error {line : List Char} {c : Char} (hc : c ∈ stripComment line) (h0 : c ≠ '0')
    (h1 : c ≠ '1') (hblank : isBlank c = false) : ∃ e, parseLine line = .error e := by
  have htrim := mem_trim_of_mem hc hblank
  unfold parseLine
  split
  · rename_i hnil
    simp [hnil] at htrim
  · rename_i d ds hcons
    have hbad : ¬ ((d :: ds).all fun d => d == '0' || d == '1') = true := fun hall => by
      simpa [h0, h1] using List.all_eq_true.1 hall c (hcons ▸ htrim)
    rw [if_neg hbad]
    exact ⟨_, rfl⟩

/-- Settles O5: the line's error makes the whole text fail. -/
theorem nonBinaryLineIsRefused : Obligations.NonBinaryLineIsRefused := by
  intro P text line c hline hc h0 h1 hblank
  obtain ⟨e, he⟩ := exists_parseLine_error hc h0 h1 hblank
  obtain ⟨e', he'⟩ := exists_parseLines_error he hline
  exact ⟨e', by simp only [loadText, he']⟩

/-- Settles O3: the length check of the launch, and the missing text. -/
theorem overlongImageIsRefused : Obligations.OverlongImageIsRefused := by
  intro P image hlong
  exact ⟨if_neg (not_le.2 hlong), rfl⟩

end Sys2Proof.Proofs
end

section
/-! PROOFS. Reset and the trace port (R36, R222, R230). -/

namespace Sys2Proof.Proofs

open Sys2Proof.Machine

variable {P : Params} {s : State}

/-- Settles O1: reset's memory is empty and its register file all zeros. -/
theorem resetLeavesSpecifiedValues : Obligations.ResetLeavesSpecifiedValues := by
  refine ⟨rfl, fun P => ⟨?_, ?_, rfl, rfl, rfl, rfl, rfl⟩⟩
  · exact fun a ha => State.memRead_nat_eq_ok.2 ⟨ha, Memory.read_nil a⟩
  · exact fun i hi => State.readReg_eq_ok.2 ⟨hi, by rw [State.resetWith_x, Vector.getElem_replicate]⟩

/-- The Tracer's byte is the one a read gives, and absent where the read raises. -/
theorem peek_eq_toOption_memRead (a : Nat) : s.peek P a = (s.memRead P (a : Int)).toOption := by
  by_cases ha : a < P.memSize
  · rw [State.peek, if_pos ha, State.memRead_nat_eq_ok.2 ⟨ha, rfl⟩]
    rfl
  · rw [State.peek, if_neg ha, State.memRead_nat_eq_error.2 ⟨not_lt.1 ha, rfl⟩]
    rfl

/-- Settles O46: each of the three traced bytes is a peek at pc + k. -/
theorem traceReportsAbsentBytes : Obligations.TraceReportsAbsentBytes := by
  intro P s
  refine ⟨rfl, rfl, fun k hk => ?_⟩
  rw [← peek_eq_toOption_memRead]
  match k with
  | 0 | 1 | 2 => rfl

end Sys2Proof.Proofs
end
